-- ==== Sys2Proof/Word.lean ====
section
/-! DEFINITION. Word types and the plainest arithmetic on them (00_scope.md R8, R9). -/

namespace Sys2Proof

/-- Eight bits, the smallest addressable unit (R15, R50). -/
abbrev Byte := BitVec 8

/-- A linear or effective address, or a 64-bit register (R26, R27, R50). -/
abbrev Word64 := BitVec 64

/-- Bit `i` of `v`, the `v[i]` of R8. -/
abbrev bitAt {n : Nat} (v : BitVec n) (i : Nat) : Bool := v.getLsbD i

/-- A field of `width` bits whose lowest bit is `lo`: the `v[hi:lo]` of R8 with `hi = lo + width - 1`. -/
abbrev field {n : Nat} (v : BitVec n) (lo width : Nat) : BitVec width := v.extractLsb' lo width

/-- One bit in front of three: the `R ++ ModRM.reg` of R103, `B ++ rm` of R106. -/
abbrev extend3 (hi : Bool) (lo : BitVec 3) : BitVec 4 := BitVec.ofBool hi ++ lo

end Sys2Proof
end

