-- ==== Sys2Proof/Config.lean ====
section
/-! DEFINITION. What is fixed for one machine: its parameters (00_scope.md R6) and the one free value. -/

namespace Sys2Proof

/-- R6 `MODE`: the two execution modes the spec covers (decision D1). -/
inductive Mode where
  | mode64
  | mode32
deriving DecidableEq, Repr

/-- The modes R5 leaves out and decision D1 refuses by name, and bits that name no mode. -/
inductive OtherMode where
  | realAddress
  | virtual8086
  | code16
  /-- Told by the state's own field `smm`, the spec naming the mode and no register bit for it
  (log 36). -/
  | systemManagement
  /-- CS.L and IA32_EFER.LMA say `Mode64` (R29), but paging is off or IA32_EFER.LME is clear, which
  R221 rules out: the bits name no mode (log 34). -/
  | inconsistent
deriving DecidableEq, Repr

/-- The parameters of R6 that differ from one processor or launch to another and that the step
reads. The spec calls them arguments of the model; they are carried in the state, where no step
changes them (log 4). -/
structure Cpu where
  /-- CPUID flag MMX (R30). -/
  hasMmx : Bool
  /-- CPUID flag SSE2 (R30). -/
  hasSse2 : Bool
  /-- CPUID flag AVX (R30). -/
  hasAvx : Bool
  /-- CPUID flag AVX2 (R30). -/
  hasAvx2 : Bool
  /-- `Admit16BitAddressing` (R6, decision D17). -/
  admit16 : Bool
deriving DecidableEq, Repr

/-- The parameters at reset. DESIGN CHOICE (log 4): all four feature flags true, as the test
vectors take them; `admit16` false, the default of D17. -/
def Cpu.default : Cpu :=
  { hasMmx := true, hasSse2 := true, hasAvx := true, hasAvx2 := true, admit16 := false }

/-- R6 `VLMAX`, the width of a YMM register in bits (decision D2). -/
abbrev Config.vlmax : Nat := 256

/-- The architecture's limit on the length of an instruction, in bytes (R116). -/
def Config.maxLength : Nat := 15

/-- What EDX holds after reset: "the processor signature" (R35).
PRESUMED (log 7): the signature of the family's first processor with AVX2. -/
def Config.processorSignature : Word64 := 0x000306C3#64

/-- FREE VALUE (log 14): whether #AC(0) is reported before #PF when both apply, for the
instruction at the first address with its operand at the second. R188 says "the model admits
either", so nothing may be known of it. -/
opaque Config.alignmentBeforePage : Word64 → Word64 → Bool

end Sys2Proof
end

