-- ==== Sys2Proof/Syntax.lean ====
section
/-! DEFINITION. The twelve encodings of 30_encoding.md R100 as one inductive, with every part of an
encoding kept as it is written, so that no bit of it is lost between bytes and instruction. -/

namespace Sys2Proof

/-- The segment registers, in the order of their numbers 0 to 5 (R28). -/
inductive Seg where
  | es | cs | ss | ds | fs | gs
deriving DecidableEq, Repr

/-- One legacy prefix byte (R80). `lock`, `repne` and `rep` are read by the decoder but stand in no
decoded instruction (R117, R118). -/
inductive Prefix where
  | opSize
  | addrSize
  | seg (s : Seg)
  | lock
  | repne
  | rep
deriving DecidableEq, Repr

/-- What makes two prefixes repetitions of each other: every segment override counts as one kind
(R115 step 1). -/
inductive PrefixKind where
  | opSize | addrSize | seg | lock | repne | rep
deriving DecidableEq, Repr

def Prefix.kind : Prefix → PrefixKind
  | .opSize => .opSize
  | .addrSize => .addrSize
  | .seg _ => .seg
  | .lock => .lock
  | .repne => .repne
  | .rep => .rep

/-- The four low bits of a REX byte (R104). -/
structure Rex where
  w : Bool
  r : Bool
  x : Bool
  b : Bool
deriving DecidableEq, Repr

/-- Displacement of 32-bit and 64-bit addressing, as the `mod` field chooses it (R106, R108). -/
inductive Disp where
  | none
  | disp8 (d : BitVec 8)
  | disp32 (d : BitVec 32)
deriving DecidableEq, Repr

/-- Displacement of 16-bit addressing (R108, R114). -/
inductive Disp16 where
  | none
  | disp8 (d : BitVec 8)
  | disp16 (d : BitVec 16)
deriving DecidableEq, Repr

/-- A memory operand as ModRM, SIB and displacement write it. -/
inductive MemForm where
  /-- `[B ++ rm]` plus displacement; `rm` is not 100, and not 101 without a displacement (R106). -/
  | base (rm : BitVec 3) (d : Disp)
  /-- `mod = 00`, `rm = 101`: `disp32` alone in `Mode32`, RIP-relative in `Mode64` (R106, R107). -/
  | disp32 (d : BitVec 32)
  /-- An SIB byte with a base register (R109); `base` is not 101 without a displacement. -/
  | sib (ss : BitVec 2) (index base : BitVec 3) (d : Disp)
  /-- An SIB byte with `base = 101` and `mod = 00`: no base register, `disp32` (R109). -/
  | sibNoBase (ss : BitVec 2) (index : BitVec 3) (d : BitVec 32)
  /-- 16-bit addressing (R114); `rm` is not 110 without a displacement. -/
  | base16 (rm : BitVec 3) (d : Disp16)
  /-- 16-bit addressing with `mod = 00`, `rm = 110`: `disp16` alone (R114). -/
  | disp16 (d : BitVec 16)
deriving DecidableEq, Repr

/-- The `r/m` operand: a register when `mod = 11`, else memory (R101, R105). -/
inductive RegMem where
  | reg (rm : BitVec 3)
  | mem (f : MemForm)
deriving DecidableEq, Repr

/-- What stands before the `0F` of a legacy encoding (R80): the prefixes in the order of the
instruction stream (66H among them) and the REX byte. -/
structure LegacyEnc where
  prefixes : List Prefix
  rex : Option Rex
deriving DecidableEq, Repr

/-- The VEX prefix's form and its bits, un-inverted (R111). -/
inductive VexForm where
  | two (r : Bool)
  | three (r x b w : Bool)
deriving DecidableEq, Repr

/-- What stands before the opcode byte of a VEX encoding (R81, R111): the prefixes before the VEX
prefix, its form, and `vvvv` un-inverted. `L`, `pp` and `mmmmm` are fixed by the row (R112). -/
structure VexEnc where
  prefixes : List Prefix
  form : VexForm
  vvvv : BitVec 4
deriving DecidableEq, Repr

/-- The instructions: one constructor per row of the opcode table (R100). `reg` is ModRM.reg. -/
inductive Instr where
  /-- PADDB mm, mm/m64 (R150). -/
  | paddbMmx (e : LegacyEnc) (reg : BitVec 3) (rm : RegMem)
  /-- PADDB xmm1, xmm2/m128 (R151). -/
  | paddbSse (e : LegacyEnc) (reg : BitVec 3) (rm : RegMem)
  /-- PADDW mm, mm/m64 (R160). -/
  | paddwMmx (e : LegacyEnc) (reg : BitVec 3) (rm : RegMem)
  /-- PADDW xmm1, xmm2/m128 (R161). -/
  | paddwSse (e : LegacyEnc) (reg : BitVec 3) (rm : RegMem)
  /-- PADDD mm, mm/m64 (R170). -/
  | padddMmx (e : LegacyEnc) (reg : BitVec 3) (rm : RegMem)
  /-- PADDD xmm1, xmm2/m128 (R171). -/
  | padddSse (e : LegacyEnc) (reg : BitVec 3) (rm : RegMem)
  /-- VPADDB xmm1, xmm2, xmm3/m128 (R152). -/
  | vpaddbXmm (e : VexEnc) (reg : BitVec 3) (rm : RegMem)
  /-- VPADDW xmm1, xmm2, xmm3/m128 (R162). -/
  | vpaddwXmm (e : VexEnc) (reg : BitVec 3) (rm : RegMem)
  /-- VPADDD xmm1, xmm2, xmm3/m128 (R172). -/
  | vpadddXmm (e : VexEnc) (reg : BitVec 3) (rm : RegMem)
  /-- VPADDB ymm1, ymm2, ymm3/m256 (R153). -/
  | vpaddbYmm (e : VexEnc) (reg : BitVec 3) (rm : RegMem)
  /-- VPADDW ymm1, ymm2, ymm3/m256 (R163). -/
  | vpaddwYmm (e : VexEnc) (reg : BitVec 3) (rm : RegMem)
  /-- VPADDD ymm1, ymm2, ymm3/m256 (R173). -/
  | vpadddYmm (e : VexEnc) (reg : BitVec 3) (rm : RegMem)
deriving DecidableEq, Repr

/-- The four encoding classes (R15). -/
inductive EncClass where
  | mmx64 | sse128 | vex128 | vex256
deriving DecidableEq, Repr

/-- The element widths, chosen by the last opcode byte (R84). -/
inductive Width where
  | byte | word | dword
deriving DecidableEq, Repr

/-- Element width in bits (R84). -/
def Width.bits : Width → Nat
  | .byte => 8
  | .word => 16
  | .dword => 32

/-- The class of an instruction (R100). -/
def Instr.cls : Instr → EncClass
  | .paddbMmx _ _ _ | .paddwMmx _ _ _ | .padddMmx _ _ _ => .mmx64
  | .paddbSse _ _ _ | .paddwSse _ _ _ | .padddSse _ _ _ => .sse128
  | .vpaddbXmm _ _ _ | .vpaddwXmm _ _ _ | .vpadddXmm _ _ _ => .vex128
  | .vpaddbYmm _ _ _ | .vpaddwYmm _ _ _ | .vpadddYmm _ _ _ => .vex256

/-- The element width of an instruction (R100). -/
def Instr.width : Instr → Width
  | .paddbMmx _ _ _ | .paddbSse _ _ _ | .vpaddbXmm _ _ _ | .vpaddbYmm _ _ _ => .byte
  | .paddwMmx _ _ _ | .paddwSse _ _ _ | .vpaddwXmm _ _ _ | .vpaddwYmm _ _ _ => .word
  | .padddMmx _ _ _ | .padddSse _ _ _ | .vpadddXmm _ _ _ | .vpadddYmm _ _ _ => .dword

/-- The `r/m` operand of an instruction (R102). -/
def Instr.rm : Instr → RegMem
  | .paddbMmx _ _ rm | .paddwMmx _ _ rm | .padddMmx _ _ rm
  | .paddbSse _ _ rm | .paddwSse _ _ rm | .padddSse _ _ rm
  | .vpaddbXmm _ _ rm | .vpaddwXmm _ _ rm | .vpadddXmm _ _ rm
  | .vpaddbYmm _ _ rm | .vpaddwYmm _ _ rm | .vpadddYmm _ _ rm => rm

/-- ModRM.reg of an instruction (R102). -/
def Instr.reg : Instr → BitVec 3
  | .paddbMmx _ r _ | .paddwMmx _ r _ | .padddMmx _ r _
  | .paddbSse _ r _ | .paddwSse _ r _ | .padddSse _ r _
  | .vpaddbXmm _ r _ | .vpaddwXmm _ r _ | .vpadddXmm _ r _
  | .vpaddbYmm _ r _ | .vpaddwYmm _ r _ | .vpadddYmm _ r _ => r

end Sys2Proof
end

