-- ==== Sys2Proof/WellFormed.lean ====
section
/-! DEFINITION. Which terms of `Instr` are instructions of the spec in a given mode: what the decoder
of 30_encoding.md R115 can answer, and what the encoder can write. -/

namespace Sys2Proof

/-- At most one prefix of each kind (R115 step 1, decision D15). -/
def Prefix.distinct (ps : List Prefix) : Bool :=
  decide ((ps.map Prefix.kind).Nodup)

/-- Only prefixes that a decoded instruction may carry: no LOCK (R118), no F2H or F3H (R117). -/
def Prefix.admitted (ps : List Prefix) : Bool :=
  ps.all fun p => p != .lock && p != .repne && p != .rep

/-- 16-bit addressing: 67H in `Mode32` (R114). -/
def addr16 (m : Mode) (ps : List Prefix) : Bool :=
  decide (m = .mode32) && ps.contains .addrSize

/-- The mode takes the prefixes: 67H in `Mode32` only when admitted (decision D17). -/
def addr16Admitted (m : Mode) (a16 : Bool) (ps : List Prefix) : Bool :=
  !addr16 m ps || a16

/-- The memory form is one the ModRM and SIB bytes can write, for the address size in force
(`wide16` for 16-bit addressing; R106, R109, R114). -/
def MemForm.wf (wide16 : Bool) : MemForm → Bool
  | .base rm d => !wide16 && rm != 4#3 && !(rm == 5#3 && d == .none)
  | .disp32 _ => !wide16
  | .sib _ _ bse d => !wide16 && !(bse == 5#3 && d == .none)
  | .sibNoBase _ _ _ => !wide16
  | .base16 rm d => wide16 && !(rm == 6#3 && d == .none)
  | .disp16 _ => wide16

def RegMem.wf (wide16 : Bool) : RegMem → Bool
  | .reg _ => true
  | .mem f => f.wf wide16

/-- A legacy encoding: admitted prefixes, 66H exactly for the `SSE128` class (R83), REX in `Mode64`
only (R104). -/
def LegacyEnc.wf (m : Mode) (a16 : Bool) (needs66 : Bool) (e : LegacyEnc) : Bool :=
  Prefix.distinct e.prefixes && Prefix.admitted e.prefixes
    && (e.prefixes.contains .opSize == needs66)
    && (decide (m = .mode64) || e.rex.isNone)
    && addr16Admitted m a16 e.prefixes

/-- The register-extension bits of a VEX form that `Mode32` cannot have (R113, decision D26). -/
def VexForm.plain : VexForm → Bool
  | .two r => !r
  | .three r x b _ => !r && !x && !b

/-- A VEX encoding: only 67H and a segment override before it (R81, R118); in `Mode32` no extension
bit and `vvvv` below 8 (R113, decision D26). -/
def VexEnc.wf (m : Mode) (a16 : Bool) (e : VexEnc) : Bool :=
  Prefix.distinct e.prefixes && Prefix.admitted e.prefixes
    && !e.prefixes.contains .opSize
    && (decide (m = .mode64) || (e.form.plain && !bitAt e.vvvv 3))
    && addr16Admitted m a16 e.prefixes

/-- A legacy instruction: its encoding and its operand. -/
def legacyWf (m : Mode) (a16 needs66 : Bool) (e : LegacyEnc) (rm : RegMem) : Bool :=
  e.wf m a16 needs66 && rm.wf (addr16 m e.prefixes)

/-- A VEX instruction: its encoding and its operand. -/
def vexWf (m : Mode) (a16 : Bool) (e : VexEnc) (rm : RegMem) : Bool :=
  e.wf m a16 && rm.wf (addr16 m e.prefixes)

/-- `i` is an instruction in mode `m`, `a16` being `Admit16BitAddressing` (R6). -/
def Instr.wf (m : Mode) (a16 : Bool) : Instr → Bool
  | .paddbMmx e _ rm => legacyWf m a16 false e rm
  | .paddbSse e _ rm => legacyWf m a16 true e rm
  | .paddwMmx e _ rm => legacyWf m a16 false e rm
  | .paddwSse e _ rm => legacyWf m a16 true e rm
  | .padddMmx e _ rm => legacyWf m a16 false e rm
  | .padddSse e _ rm => legacyWf m a16 true e rm
  | .vpaddbXmm e _ rm => vexWf m a16 e rm
  | .vpaddwXmm e _ rm => vexWf m a16 e rm
  | .vpadddXmm e _ rm => vexWf m a16 e rm
  | .vpaddbYmm e _ rm => vexWf m a16 e rm
  | .vpaddwYmm e _ rm => vexWf m a16 e rm
  | .vpadddYmm e _ rm => vexWf m a16 e rm

end Sys2Proof
end

