-- ==== Sys2Proof/Decode.lean ====
section
/-! DEFINITION. The decoder of 30_encoding.md R115, total on any bytes and rejecting by name, and
after it the encoder written from the same rules. The decoder gives the feature-flag and
environment checks of R115 step 7 to the machine (60_exceptions.md R183 to R186). -/

namespace Sys2Proof

/-- Why a byte sequence is given no meaning. Each is safe: the run stops by name. -/
inductive Reject where
  /-- The opcode, or the VEX prefix's `mmmmm` or `pp`, is not one of the twelve rows
  (R112, R115, U26, U27). -/
  | outOfScope
  /-- A prefix is repeated, two segment overrides counting as a repetition (R115 step 1, decision
  D15). -/
  | repeatedPrefix
  /-- A REX byte followed by a legacy prefix (R104, decision D15). -/
  | rexNotLast
  /-- F2H or F3H with a legacy opcode (R117, decision D15). -/
  | repeatString
  /-- C4H or C5H in `Mode32` with bits 7:6 of the next byte not 11b: LES or LDS (R113). -/
  | lesOrLds
  /-- A `Mode32` VEX prefix with `VEX.B = 1` or `vvvv >= 8` (R113, decision D26). -/
  | vexRegisterInMode32
  /-- 67H in `Mode32` while `Admit16BitAddressing` is false (R114, decision D17). -/
  | addr16NotAdmitted
deriving DecidableEq, Repr

/-- What the decoder answers on a list of bytes. -/
inductive Decoded where
  /-- An instruction, and the bytes after it. -/
  | instr (i : Instr) (rest : List Byte)
  /-- The bytes raise #UD (R118). -/
  | invalidOpcode
  /-- The model gives the bytes no meaning. -/
  | reject (r : Reject)
  /-- The list ends before the decoder knows. -/
  | truncated
deriving DecidableEq, Repr

/-! ### Prefixes and REX (R80, R104, R115 steps 1 and 2) -/

/-- The legacy prefix a byte is, if any (R80, R110, R117, R118). -/
def Prefix.ofByte? (b : Byte) : Option Prefix :=
  if b = 0x66#8 then some .opSize
  else if b = 0x67#8 then some .addrSize
  else if b = 0x26#8 then some (.seg .es)
  else if b = 0x2E#8 then some (.seg .cs)
  else if b = 0x36#8 then some (.seg .ss)
  else if b = 0x3E#8 then some (.seg .ds)
  else if b = 0x64#8 then some (.seg .fs)
  else if b = 0x65#8 then some (.seg .gs)
  else if b = 0xF0#8 then some .lock
  else if b = 0xF2#8 then some .repne
  else if b = 0xF3#8 then some .rep
  else none

/-- The prefixes a byte list begins with, and the bytes after them (R82). -/
def scanPrefixes : List Byte → List Prefix × List Byte
  | [] => ([], [])
  | b :: t =>
    match Prefix.ofByte? b with
    | some p => ((p :: (scanPrefixes t).1), (scanPrefixes t).2)
    | none => ([], b :: t)

/-- A byte 40H to 4FH as a REX byte (R104). -/
def Rex.ofByte? (b : Byte) : Option Rex :=
  if field b 4 4 = 4#4 then some ⟨bitAt b 3, bitAt b 2, bitAt b 1, bitAt b 0⟩ else none

/-- The REX byte a byte list begins with, in `Mode64` only (R104). -/
def takeRex (m : Mode) : List Byte → Option Rex × List Byte
  | [] => (none, [])
  | b :: t =>
    match m, Rex.ofByte? b with
    | .mode64, some r => (some r, t)
    | _, _ => (none, b :: t)

/-! ### ModRM, SIB, displacement (R101, R106 to R109, R114) -/

/-- Four bytes, least significant first (R108). -/
def take32 : List Byte → Option (BitVec 32 × List Byte)
  | b0 :: b1 :: b2 :: b3 :: t => some (b3 ++ b2 ++ b1 ++ b0, t)
  | _ => none

/-- Two bytes, least significant first (R108). -/
def take16 : List Byte → Option (BitVec 16 × List Byte)
  | b0 :: b1 :: t => some (b1 ++ b0, t)
  | _ => none

/-- The displacement the `mod` field asks for (R106). -/
def parseDisp (mod : BitVec 2) (t : List Byte) : Option (Disp × List Byte) :=
  if mod = 0#2 then some (.none, t)
  else if mod = 1#2 then
    match t with
    | d :: t' => some (.disp8 d, t')
    | [] => none
  else
    match take32 t with
    | some (d, t') => some (.disp32 d, t')
    | none => none

/-- The displacement the `mod` field asks for in 16-bit addressing (R114). -/
def parseDisp16 (mod : BitVec 2) (t : List Byte) : Option (Disp16 × List Byte) :=
  if mod = 0#2 then some (.none, t)
  else if mod = 1#2 then
    match t with
    | d :: t' => some (.disp8 d, t')
    | [] => none
  else
    match take16 t with
    | some (d, t') => some (.disp16 d, t')
    | none => none

/-- The SIB form: the SIB byte and what follows it (R109). -/
def parseSib (mod : BitVec 2) : List Byte → Option (MemForm × List Byte)
  | [] => none
  | sb :: t =>
    if mod = 0#2 ∧ field sb 0 3 = 5#3 then
      match take32 t with
      | some (d, t') => some (.sibNoBase (field sb 6 2) (field sb 3 3) d, t')
      | none => none
    else
      match parseDisp mod t with
      | some (d, t') => some (.sib (field sb 6 2) (field sb 3 3) (field sb 0 3) d, t')
      | none => none

/-- A memory operand with 32-bit or 64-bit addressing (R106). -/
def parseMem (mod : BitVec 2) (rm : BitVec 3) (t : List Byte) : Option (MemForm × List Byte) :=
  if rm = 4#3 then parseSib mod t
  else if mod = 0#2 ∧ rm = 5#3 then
    match take32 t with
    | some (d, t') => some (.disp32 d, t')
    | none => none
  else
    match parseDisp mod t with
    | some (d, t') => some (.base rm d, t')
    | none => none

/-- A memory operand with 16-bit addressing (R114). -/
def parseMem16 (mod : BitVec 2) (rm : BitVec 3) (t : List Byte) : Option (MemForm × List Byte) :=
  if mod = 0#2 ∧ rm = 6#3 then
    match take16 t with
    | some (d, t') => some (.disp16 d, t')
    | none => none
  else
    match parseDisp16 mod t with
    | some (d, t') => some (.base16 rm d, t')
    | none => none

/-- The ModRM byte and all it asks for: the `reg` field, the `r/m` operand and the bytes after it
(R101, R105); `wide16` says that 16-bit addressing is in force. `none` when the list ends first. -/
def parseModRM (wide16 : Bool) : List Byte → Option (BitVec 3 × RegMem × List Byte)
  | [] => none
  | mb :: t =>
    if field mb 6 2 = 3#2 then some (field mb 3 3, .reg (field mb 0 3), t)
    else
      match (if wide16 then parseMem16 (field mb 6 2) (field mb 0 3) t
             else parseMem (field mb 6 2) (field mb 0 3) t) with
      | some (f, t') => some (field mb 3 3, .mem f, t')
      | none => none

/-! ### The opcode byte and the rows of R100 -/

/-- The element width the last opcode byte selects, in every class (R84). -/
def Width.ofOpcode? (op : Byte) : Option Width :=
  if op = 0xFC#8 then some .byte
  else if op = 0xFD#8 then some .word
  else if op = 0xFE#8 then some .dword
  else none

/-- Rows 1, 3, 5 of R100. -/
def mkMmx : Width → LegacyEnc → BitVec 3 → RegMem → Instr
  | .byte => .paddbMmx
  | .word => .paddwMmx
  | .dword => .padddMmx

/-- Rows 2, 4, 6 of R100. -/
def mkSse : Width → LegacyEnc → BitVec 3 → RegMem → Instr
  | .byte => .paddbSse
  | .word => .paddwSse
  | .dword => .padddSse

/-- Rows 7, 8, 9 of R100. -/
def mkXmm : Width → VexEnc → BitVec 3 → RegMem → Instr
  | .byte => .vpaddbXmm
  | .word => .vpaddwXmm
  | .dword => .vpadddXmm

/-- Rows 10, 11, 12 of R100. -/
def mkYmm : Width → VexEnc → BitVec 3 → RegMem → Instr
  | .byte => .vpaddbYmm
  | .word => .vpaddwYmm
  | .dword => .vpadddYmm

/-- 66H present selects `SSE128`, absent `MMX64` (R83). -/
def mkLegacy (w : Width) (e : LegacyEnc) : BitVec 3 → RegMem → Instr :=
  if e.prefixes.contains .opSize then mkSse w e else mkMmx w e

/-- `L` selects `VEX256` or `VEX128` (R112). -/
def mkVex (l : Bool) (w : Width) (e : VexEnc) : BitVec 3 → RegMem → Instr :=
  if l then mkYmm w e else mkXmm w e

/-! ### The decoder (R115) -/

/-- The end of both branches, R115 step 5: ModRM and what it asks for. -/
def decodeOperands (m : Mode) (a16 : Bool) (ps : List Prefix)
    (mk : BitVec 3 → RegMem → Instr) (t : List Byte) : Decoded :=
  if addr16Admitted m a16 ps then
    match parseModRM (addr16 m ps) t with
    | some (reg, rm, rest) => .instr (mk reg rm) rest
    | none => .truncated
  else .reject .addr16NotAdmitted

/-- R115 step 3 after `0F`. -/
def decodeLegacy (m : Mode) (a16 : Bool) (ps : List Prefix) (rex : Option Rex) :
    List Byte → Decoded
  | [] => .truncated
  | op :: t =>
    match Width.ofOpcode? op with
    | none => .reject .outOfScope
    | some w =>
      if ps.contains .repne || ps.contains .rep then .reject .repeatString
      else if ps.contains .lock then .invalidOpcode
      else decodeOperands m a16 ps (mkLegacy w ⟨ps, rex⟩) t

/-- The fields of a VEX prefix as R111 lays them out, un-inverted. -/
structure VexFields where
  form : VexForm
  mmmmm : BitVec 5
  vvvv : BitVec 4
  l : Bool
  pp : BitVec 2
deriving DecidableEq, Repr

/-- Two-byte VEX, `C5 P` (R111). -/
def VexFields.ofP (p : Byte) : VexFields :=
  { form := .two (!bitAt p 7), mmmmm := 1#5, vvvv := ~~~(field p 3 4),
    l := bitAt p 2, pp := field p 0 2 }

/-- Three-byte VEX, `C4 P1 P2` (R111). -/
def VexFields.ofP1P2 (p1 p2 : Byte) : VexFields :=
  { form := .three (!bitAt p1 7) (!bitAt p1 6) (!bitAt p1 5) (bitAt p2 7),
    mmmmm := field p1 0 5, vvvv := ~~~(field p2 3 4), l := bitAt p2 2, pp := field p2 0 2 }

/-- The bytes of a VEX prefix after its first byte `b` (C4H or C5H). -/
def takeVex (b : Byte) (t : List Byte) : Option (VexFields × List Byte) :=
  if b = 0xC5#8 then
    match t with
    | p :: t' => some (.ofP p, t')
    | _ => none
  else
    match t with
    | p1 :: p2 :: t' => some (.ofP1P2 p1 p2, t')
    | _ => none

/-- `Mode32` reads C4H or C5H as LES or LDS unless bits 7:6 of the next byte are 11b (R113);
`none` when there is no next byte. -/
def vexRecognised (m : Mode) (t : List Byte) : Option Bool :=
  match m, t with
  | .mode64, _ => some true
  | .mode32, [] => none
  | .mode32, p :: _ => some (decide (field p 6 2 = 3#2))

/-- R118: 66H, F2H, F3H, F0H or REX before a VEX prefix. -/
def badBeforeVex (ps : List Prefix) (rex : Option Rex) : Bool :=
  ps.contains .opSize || !Prefix.admitted ps || rex.isSome

/-- R113, decision D26: a `Mode32` VEX prefix may not name registers above 7. -/
def vexRegistersOk (m : Mode) (v : VexFields) : Bool :=
  decide (m = .mode64) || (v.form.plain && !bitAt v.vvvv 3)

/-- The opcode byte after a VEX prefix and its operands (R112, R115 steps 3 to 5). -/
def decodeVexOpcode (m : Mode) (a16 : Bool) (ps : List Prefix) (v : VexFields) :
    List Byte → Decoded
  | [] => .truncated
  | op :: t =>
    match Width.ofOpcode? op with
    | none => .reject .outOfScope
    | some w =>
      if vexRegistersOk m v then decodeOperands m a16 ps (mkVex v.l w ⟨ps, v.form, v.vvvv⟩) t
      else .reject .vexRegisterInMode32

/-- R115 step 3 from the byte C4H or C5H on; `t` is what follows that byte `b`. -/
def decodeVex (m : Mode) (a16 : Bool) (ps : List Prefix) (rex : Option Rex) (b : Byte)
    (t : List Byte) : Decoded :=
  match vexRecognised m t with
  | none => .truncated
  | some false => .reject .lesOrLds
  | some true =>
    match takeVex b t with
    | none => .truncated
    | some (v, t') =>
      if badBeforeVex ps rex then .invalidOpcode
      else if v.mmmmm = 1#5 ∧ v.pp = 1#2 then decodeVexOpcode m a16 ps v t'
      else .reject .outOfScope

/-- R115 step 3: the first byte after prefixes and REX. -/
def decodeOpcode (m : Mode) (a16 : Bool) (ps : List Prefix) (rex : Option Rex) :
    List Byte → Decoded
  | [] => .truncated
  | b :: t =>
    if b = 0x0F#8 then decodeLegacy m a16 ps rex t
    else if b = 0xC4#8 ∨ b = 0xC5#8 then decodeVex m a16 ps rex b t
    else if rex.isSome ∧ (Prefix.ofByte? b).isSome then .reject .rexNotLast
    else .reject .outOfScope

/-- R115: the instruction a byte list begins with, in mode `m`, `a16` being
`Admit16BitAddressing`. -/
def decode (m : Mode) (a16 : Bool) (bs : List Byte) : Decoded :=
  if Prefix.distinct (scanPrefixes bs).1 then
    decodeOpcode m a16 (scanPrefixes bs).1 (takeRex m (scanPrefixes bs).2).1
      (takeRex m (scanPrefixes bs).2).2
  else .reject .repeatedPrefix

/-! ### The encoder (R80, R81, R104, R106, R109, R111, R114) -/

/-- The byte of a prefix (R80, R110). -/
def Prefix.byte : Prefix → Byte
  | .opSize => 0x66#8
  | .addrSize => 0x67#8
  | .seg .es => 0x26#8
  | .seg .cs => 0x2E#8
  | .seg .ss => 0x36#8
  | .seg .ds => 0x3E#8
  | .seg .fs => 0x64#8
  | .seg .gs => 0x65#8
  | .lock => 0xF0#8
  | .repne => 0xF2#8
  | .rep => 0xF3#8

/-- `0100WRXB` (R104). -/
def Rex.byte (r : Rex) : Byte :=
  4#4 ++ BitVec.ofBool r.w ++ BitVec.ofBool r.r ++ BitVec.ofBool r.x ++ BitVec.ofBool r.b

/-- Four bytes, least significant first (R108). -/
def bytes32 (d : BitVec 32) : List Byte := [field d 0 8, field d 8 8, field d 16 8, field d 24 8]

/-- Two bytes, least significant first (R108). -/
def bytes16 (d : BitVec 16) : List Byte := [field d 0 8, field d 8 8]

/-- The `mod` value and the bytes of a displacement (R106). -/
def Disp.mod : Disp → BitVec 2
  | .none => 0#2
  | .disp8 _ => 1#2
  | .disp32 _ => 2#2

def Disp.bytes : Disp → List Byte
  | .none => []
  | .disp8 d => [d]
  | .disp32 d => bytes32 d

/-- The same for 16-bit addressing (R114). -/
def Disp16.mod : Disp16 → BitVec 2
  | .none => 0#2
  | .disp8 _ => 1#2
  | .disp16 _ => 2#2

def Disp16.bytes : Disp16 → List Byte
  | .none => []
  | .disp8 d => [d]
  | .disp16 d => bytes16 d

/-- Two bits and two three-bit fields, the layout of ModRM (R101) and of SIB (R109). -/
def pack233 (hi : BitVec 2) (mid lo : BitVec 3) : Byte := hi ++ mid ++ lo

/-- ModRM with everything it asks for (R106, R109, R114). -/
def MemForm.bytes (reg : BitVec 3) : MemForm → List Byte
  | .base rm d => pack233 d.mod reg rm :: d.bytes
  | .disp32 d => pack233 0#2 reg 5#3 :: bytes32 d
  | .sib ss idx bse d => pack233 d.mod reg 4#3 :: pack233 ss idx bse :: d.bytes
  | .sibNoBase ss idx d => pack233 0#2 reg 4#3 :: pack233 ss idx 5#3 :: bytes32 d
  | .base16 rm d => pack233 d.mod reg rm :: d.bytes
  | .disp16 d => pack233 0#2 reg 6#3 :: bytes16 d

def RegMem.bytes (reg : BitVec 3) : RegMem → List Byte
  | .reg rm => [pack233 3#2 reg rm]
  | .mem f => f.bytes reg

/-- The last opcode byte of a width (R84). -/
def Width.opcode : Width → Byte
  | .byte => 0xFC#8
  | .word => 0xFD#8
  | .dword => 0xFE#8

def rexBytes : Option Rex → List Byte
  | none => []
  | some r => [r.byte]

/-- `[prefixes] [REX] 0F op ModRM …` (R80). -/
def encodeLegacy (w : Width) (e : LegacyEnc) (reg : BitVec 3) (rm : RegMem) : List Byte :=
  e.prefixes.map Prefix.byte ++ rexBytes e.rex ++ 0x0F#8 :: w.opcode :: rm.bytes reg

/-- The VEX prefix: `R`, `X`, `B`, `vvvv` inverted, `mmmmm = 00001b`, `pp = 01b` (R111, R112). -/
def vexBytes (l : Bool) (vvvv : BitVec 4) : VexForm → List Byte
  | .two r => [0xC5#8, BitVec.ofBool (!r) ++ ~~~vvvv ++ BitVec.ofBool l ++ 1#2]
  | .three r x b w =>
    [0xC4#8, BitVec.ofBool (!r) ++ BitVec.ofBool (!x) ++ BitVec.ofBool (!b) ++ 1#5,
      BitVec.ofBool w ++ ~~~vvvv ++ BitVec.ofBool l ++ 1#2]

/-- `[prefixes] VEX op ModRM …` (R81). -/
def encodeVex (l : Bool) (w : Width) (e : VexEnc) (reg : BitVec 3) (rm : RegMem) : List Byte :=
  e.prefixes.map Prefix.byte ++ vexBytes l e.vvvv e.form ++ w.opcode :: rm.bytes reg

/-- The bytes of an instruction. -/
def encode : Instr → List Byte
  | .paddbMmx e reg rm => encodeLegacy .byte e reg rm
  | .paddbSse e reg rm => encodeLegacy .byte e reg rm
  | .paddwMmx e reg rm => encodeLegacy .word e reg rm
  | .paddwSse e reg rm => encodeLegacy .word e reg rm
  | .padddMmx e reg rm => encodeLegacy .dword e reg rm
  | .padddSse e reg rm => encodeLegacy .dword e reg rm
  | .vpaddbXmm e reg rm => encodeVex false .byte e reg rm
  | .vpaddwXmm e reg rm => encodeVex false .word e reg rm
  | .vpadddXmm e reg rm => encodeVex false .dword e reg rm
  | .vpaddbYmm e reg rm => encodeVex true .byte e reg rm
  | .vpaddwYmm e reg rm => encodeVex true .word e reg rm
  | .vpadddYmm e reg rm => encodeVex true .dword e reg rm

/-! ### Length (R116) -/

def Disp.length : Disp → Nat
  | .none => 0
  | .disp8 _ => 1
  | .disp32 _ => 4

def Disp16.length : Disp16 → Nat
  | .none => 0
  | .disp8 _ => 1
  | .disp16 _ => 2

/-- Bytes from ModRM on (R106, R109, R114). -/
def RegMem.length : RegMem → Nat
  | .reg _ => 1
  | .mem (.base _ d) => 1 + d.length
  | .mem (.disp32 _) => 5
  | .mem (.sib _ _ _ d) => 2 + d.length
  | .mem (.sibNoBase _ _ _) => 6
  | .mem (.base16 _ d) => 1 + d.length
  | .mem (.disp16 _) => 3

/-- `len` of a legacy form (R80, R116). -/
def legacyLength (e : LegacyEnc) (rm : RegMem) : Nat :=
  e.prefixes.length + (if e.rex.isSome then 1 else 0) + 2 + rm.length

def VexForm.length : VexForm → Nat
  | .two _ => 2
  | .three _ _ _ _ => 3

/-- `len` of a VEX form (R81, R116). -/
def vexLength (e : VexEnc) (rm : RegMem) : Nat :=
  e.prefixes.length + e.form.length + 1 + rm.length

/-- `len` of an instruction (R116). -/
def Instr.length : Instr → Nat
  | .paddbMmx e _ rm | .paddwMmx e _ rm | .padddMmx e _ rm
  | .paddbSse e _ rm | .paddwSse e _ rm | .padddSse e _ rm => legacyLength e rm
  | .vpaddbXmm e _ rm | .vpaddwXmm e _ rm | .vpadddXmm e _ rm
  | .vpaddbYmm e _ rm | .vpaddwYmm e _ rm | .vpadddYmm e _ rm => vexLength e rm

/-! ### A word of the opcode table (R100, log 17) -/

/-- The longest encoding in scope, in bytes (R116). -/
def longestEncoding : Nat := 12

/-- The bytes of an instruction whose first `nbits` bits are the table's number `w`: the table
counts `0F * 256 + op` and `C4 * 2^24 + P1 * 2^16 + P2 * 2^8 + op`, so the first byte of the
stream is the most significant; every later byte is 0, up to the longest encoding. -/
def tableBytes (nbits w : Nat) : List Byte :=
  (List.range (nbits / 8)).map (fun k => BitVec.ofNat 8 (w >>> (8 * (nbits / 8 - 1 - k))))
    ++ List.replicate (longestEncoding - nbits / 8) 0#8

/-- What the decoder reads from a word of the opcode table, in `Mode64`. -/
def decodeTableWord (nbits w : Nat) : Option Instr :=
  match decode .mode64 false (tableBytes nbits w) with
  | .instr i _ => some i
  | _ => none

end Sys2Proof
end

