-- ==== Sys2Proof/Machine/State.lean ====
section
/-! DEFINITION. The machine's state as plain data (10_state.md), the reasons a step can stop
(60_exceptions.md), and the state after reset (10_state.md R35). -/

namespace Sys2Proof.Machine

/-- Byte memory (R50, R58): addresses strictly rising; an address not listed holds no value
(U18, log 9). -/
abbrev Memory := List Host.Cell

/-- The base and limit a segment register supplies (R28). -/
structure SegReg where
  base : Word64
  limit : BitVec 32
deriving DecidableEq, Repr

/-- All the state the spec gives the machine. -/
structure State where
  /-- MMX registers `MM[0..7]` (R20). -/
  mm : Vector (BitVec 64) 8
  /-- YMM registers; `XMM[i]` is the low 128 bits of `YMM[i]` (R21, R22). -/
  ymm : Vector (BitVec Config.vlmax) 16
  /-- General registers; `Mode32` has the low halves of 0 to 7 (R27). -/
  gpr : Vector Word64 16
  /-- Instruction pointer; `Mode32` has the low half (R26). -/
  ip : Word64
  /-- EFLAGS (R24). -/
  eflags : BitVec 32
  /-- MXCSR, which no encoding in scope reads or writes (R25). -/
  mxcsr : BitVec 32
  /-- x87 status word: TOP in bits 13:11, ES in bit 7 (R31, R32). -/
  x87Status : BitVec 16
  /-- x87 tag word, two bits a register (R31). -/
  x87Tag : BitVec 16
  /-- Bits 79:64 of each x87 data register; bits 63:0 are `mm` (R31). -/
  x87Hi : Vector (BitVec 16) 8
  /-- CR0 (R29). -/
  cr0 : BitVec 32
  /-- CR2, the faulting linear address of a #PF (R189). A fault ends the step, so no next state
  writes it; the address is in the fault outcome (log 1). -/
  cr2 : Word64
  /-- CR4 (R29). -/
  cr4 : BitVec 32
  /-- XCR0 (R29). -/
  xcr0 : BitVec 64
  /-- IA32_EFER (R29). -/
  efer : BitVec 64
  /-- The CS selector; its low two bits are CPL (R29, R194). -/
  csSelector : BitVec 16
  /-- CS.L: a 64-bit code segment (R29, R221). -/
  csL : Bool
  /-- CS.D: a 32-bit code segment (R6, R221). -/
  csD : Bool
  /-- The processor is in system-management mode (R5, U13), which no register bit the spec names
  shows (log 36). -/
  smm : Bool
  /-- ES, CS, SS, DS, FS, GS (R28). -/
  segs : Vector SegReg 6
  /-- Byte memory (R50). -/
  mem : Memory
  /-- The parameters of the processor and the launch (R6), which no step changes (log 4). -/
  cpu : Cpu
deriving DecidableEq, Repr

/-- The named bits of a #PF error code (R189). -/
structure PageFaultCode where
  /-- Bit 0: 0 when the page is not present. -/
  p : Bool
  /-- Bit 1: 0, the access is a read. -/
  wr : Bool
  /-- Bit 2: 1 at privilege level 3. -/
  us : Bool
  /-- Bit 3. -/
  rsvd : Bool
  /-- Bit 4: 0, a data access. -/
  id : Bool
deriving DecidableEq, Repr

/-- The fault outcomes: the exceptions of R189. Every one is raised through `raise`, changes nothing
(R187) and ends the run (decision D6, log 1): safe. -/
inductive Fault where
  /-- #UD, raised by the decoder (R118) and by the checks of R183 to R186. Safe. -/
  | invalidOpcode
  /-- #NM, raised when CR0.TS = 1 (R184 to R186). Safe. -/
  | deviceNotAvailable
  /-- #SS(0), raised by a memory operand in SS with an illegal address (R184 to R186). Safe. -/
  | stackSegment
  /-- #GP(0), raised by an illegal address in another segment, by a misaligned `SSE128` operand
  (R55), and by the fetch (R188). Safe. -/
  | generalProtection
  /-- #PF, raised by a memory operand on a byte the memory does not hold, with the address of that
  byte (R56, R189). Safe. -/
  | pageFault (code : PageFaultCode) (address : Word64)
  /-- #MF, raised by an `MMX64` form while an x87 error is pending (R32). Safe. -/
  | x87FloatingPoint
  /-- #AC(0), raised by a misaligned `MMX64` operand while alignment checking is on (R55). Safe. -/
  | alignmentCheck
deriving DecidableEq, Repr

/-- The reasons the model gives a step no meaning. Each stops the run by name: safe. -/
inductive Refusal where
  /-- An instruction without a meaning; raised by `exec`'s arms only. Safe. -/
  | notModelled (mnemonic : String)
  /-- The processor is in a mode the spec leaves out (R5, decision D1); raised by every meaning and
  by the step. Safe. -/
  | modeOutOfScope (m : OtherMode)
  /-- The decoder gives the bytes no meaning (R115 to R117); raised by the fetch. Safe. -/
  | notAnInstruction (why : Reject)
  /-- The fetch needs a byte the memory does not hold (decision D20); raised by the fetch. Safe. -/
  | fetchOutsideText
  /-- The instruction's bytes cross the top of the address space or leave the canonical range
  (R26, decision D12); raised by the fetch. Safe. -/
  | codeCrossesTop
deriving DecidableEq, Repr

/-- A step that stops: with a fault, or refused. -/
inductive Stop where
  | fault (f : Fault)
  | refused (r : Refusal)
deriving DecidableEq, Repr

/-- The segment registers after reset: the CS base of R35; the rest PRESUMED, the family's (log 5). -/
def resetSegs : Vector SegReg 6 :=
  #v[⟨0#64, 0xFFFF#32⟩, ⟨0xFFFF0000#64, 0xFFFF#32⟩, ⟨0#64, 0xFFFF#32⟩,
     ⟨0#64, 0xFFFF#32⟩, ⟨0#64, 0xFFFF#32⟩, ⟨0#64, 0xFFFF#32⟩]

/-- The general registers after reset (R35): RDX the processor signature (log 7), the others 0.
R35 gives EAX only "if self-test passed". DESIGN CHOICE (log 30): the self-test passed. -/
def resetGpr : Vector Word64 16 :=
  (Vector.replicate 16 0#64).set 2 Config.processorSignature

/-- The machine right after power-up or RESET (R35). The values R35 does not give are named in
logs 4 to 7 and 36. The mode is real-address mode, which the spec leaves out. -/
def State.reset : State where
  mm := Vector.replicate 8 0#64
  ymm := Vector.replicate 16 0
  gpr := resetGpr
  ip := 0xFFF0#64
  eflags := 0x00000002#32
  mxcsr := 0x1F80#32
  x87Status := 0#16
  x87Tag := 0x5555#16
  x87Hi := Vector.replicate 8 0#16
  cr0 := 0x60000010#32
  cr2 := 0#64
  cr4 := 0#32
  xcr0 := 1#64
  efer := 0#64
  csSelector := 0xF000#16
  csL := false
  csD := false
  smm := false
  segs := resetSegs
  mem := []
  cpu := Cpu.default

end Sys2Proof.Machine
end

