-- ==== Sys2Proof/Machine/Flags.lean ====
section
/-! DEFINITION. The flag and status bits the checks read (10_state.md R24, R29, R31, R32). No
encoding in scope computes a flag: "Flags Affected: None" (40_packed_add_common.md R133). -/

namespace Sys2Proof.Machine

/-- EFLAGS.AC, bit 18 (R29). -/
def State.flagAC (s : State) : Bool := bitAt s.eflags 18

/-- EFLAGS.VM, bit 17. PRESUMED (log 3): the spec gives the mode and not the bit. -/
def State.flagVM (s : State) : Bool := bitAt s.eflags 17

/-- ES of the x87 status word, bit 7: an unmasked x87 error is pending (R32). -/
def State.x87ErrorPending (s : State) : Bool := bitAt s.x87Status 7

/-- TOP, bits 13:11 of the x87 status word (R31). -/
def State.x87Top (s : State) : BitVec 3 := field s.x87Status 11 3

/-- A status word with TOP set to 0 and every other bit kept (R31 a). -/
def clearTop (status : BitVec 16) : BitVec 16 := status &&& 0xC7FF#16

end Sys2Proof.Machine
end

