-- ==== Sys2Proof/Machine/Ops.lean ====
section
/-! DEFINITION. The named operations on memory, registers and control bits, and raising an
exception. -/

namespace Sys2Proof.Machine

/-! ### Exceptions (R12, R187, R189) -/

/-- What a step answers. -/
abbrev Result := Host.Outcome State Fault Refusal

/-- `raise #XX(code)`: the step ends with the fault outcome and changes nothing (R12, R187). No
handler is entered: the spec stops there (R191, decision D6, log 1). -/
def raise (f : Fault) : Result := .fault f

/-- A step that stops, as an outcome. -/
def Stop.result : Stop → Result
  | .fault f => raise f
  | .refused r => .refused r

/-- The vector of an exception (R189). -/
def Fault.vector : Fault → Nat
  | .invalidOpcode => 6
  | .deviceNotAvailable => 7
  | .stackSegment => 12
  | .generalProtection => 13
  | .pageFault _ _ => 14
  | .x87FloatingPoint => 16
  | .alignmentCheck => 17

/-- The number a #PF error code is (R189). -/
def PageFaultCode.value (c : PageFaultCode) : Nat :=
  c.p.toNat + 2 * c.wr.toNat + 4 * c.us.toNat + 8 * c.rsvd.toNat + 16 * c.id.toNat

/-- The error code an exception pushes, if it pushes one (R189). -/
def Fault.errorCode : Fault → Option Nat
  | .invalidOpcode => none
  | .deviceNotAvailable => none
  | .stackSegment => some 0
  | .generalProtection => some 0
  | .pageFault c _ => some c.value
  | .x87FloatingPoint => none
  | .alignmentCheck => some 0

/-- The address an exception records in CR2, if it records one (R189). -/
def Fault.recordedAddress : Fault → Option Word64
  | .pageFault _ a => some a
  | _ => none

/-! ### Control bits (R29) -/

def State.crPE (s : State) : Bool := bitAt s.cr0 0
def State.crEM (s : State) : Bool := bitAt s.cr0 2
def State.crTS (s : State) : Bool := bitAt s.cr0 3
def State.crAM (s : State) : Bool := bitAt s.cr0 18
def State.crPG (s : State) : Bool := bitAt s.cr0 31
def State.osfxsr (s : State) : Bool := bitAt s.cr4 9
def State.osxsave (s : State) : Bool := bitAt s.cr4 18
def State.lma (s : State) : Bool := bitAt s.efer 10

/-- IA32_EFER.LME (R221). PRESUMED (log 34): bit 8, which the spec does not number. -/
def State.lme (s : State) : Bool := bitAt s.efer 8

/-- XCR0[2:1] = 11b (R29). -/
def State.avxStateEnabled (s : State) : Bool := decide (field s.xcr0 1 2 = 3#2)

/-- CPL, the low two bits of the CS selector (R29, R194). -/
def State.cpl (s : State) : BitVec 2 := field s.csSelector 0 2

/-- Alignment checking is on: CR0.AM = 1, EFLAGS.AC = 1, privilege level 3 (R55). -/
def State.alignmentChecking (s : State) : Bool :=
  s.crAM && s.flagAC && decide (s.cpl = 3#2)

/-- `MODE` as the control bits realise it (R6, R29, R221, log 2);
system-management mode goes by its own field (R5, log 36). `Mode64` needs LMA and CS.L (R29)
and, beside them, paging and LME (R221, log 34). -/
def State.mode (s : State) : Except OtherMode Mode :=
  if s.smm then .error .systemManagement
  else if !s.crPE then .error .realAddress
  else if s.flagVM then .error .virtual8086
  else if s.lma && s.csL then
    if s.crPG && s.lme then .ok .mode64 else .error .inconsistent
  else if s.csD then .ok .mode32
  else .error .code16

/-! ### Memory (R11, R50, R51) -/

/-- The canonical form: addresses strictly rising. An unlisted address reads as no value, so no
entry can equal it. -/
abbrev Memory.wf (mem : Memory) : Prop := mem.Pairwise fun c d => c.1 < d.1

/-- The byte at an address, if the memory holds one (R58, U18). -/
def Memory.read (mem : Memory) (a : Nat) : Option Byte :=
  match mem with
  | [] => none
  | (x, v) :: t => if x = a then some v else Memory.read t a

/-- One byte written, keeping the addresses rising. -/
def Memory.write (mem : Memory) (a : Nat) (b : Byte) : Memory :=
  match mem with
  | [] => [(a, b)]
  | (x, v) :: t =>
    if a < x then (a, b) :: (x, v) :: t
    else if a = x then (a, b) :: t
    else (x, v) :: Memory.write t a b

/-- Consecutive bytes written in ascending order: the `MemWrite` of R11. No encoding in scope uses
it (R52); the launch does. -/
def Memory.writeBytes (mem : Memory) (a : Nat) : List Byte → Memory
  | [] => mem
  | b :: t => Memory.writeBytes (mem.write a b) (a + 1) t

/-- `n` bytes from `a` on as one value, the byte at `a + k` in bits `[8k+7 : 8k]` (R11, R51), or the
lowest address that holds none (R188). -/
def Memory.readLE (mem : Memory) (a : Nat) : (n : Nat) → Except Nat (BitVec (8 * n))
  | 0 => .ok 0#0
  | n + 1 =>
    match mem.read a with
    | none => .error a
    | some b =>
      match mem.readLE (a + 1) n with
      | .error e => .error e
      | .ok hi => .ok (hi ++ b)

/-! ### Registers (R10) -/

def State.readMm (s : State) (i : BitVec 3) : BitVec 64 := s.mm[i.toNat]
def State.readYmm (s : State) (i : BitVec 4) : BitVec 256 := s.ymm[i.toNat]

/-- `XMM[i]` is the view `YMM[i][127:0]` (R10, R21). -/
def State.readXmm (s : State) (i : BitVec 4) : BitVec 128 := field (s.readYmm i) 0 128

def State.readGpr (s : State) (i : BitVec 4) : Word64 := s.gpr[i.toNat]

/-- All 64 bits of `MM[i]` replaced (R10). -/
def State.writeMm (s : State) (i : BitVec 3) (v : BitVec 64) : State :=
  { s with mm := s.mm.set i.toNat v }

/-- All of `YMM[i]` replaced (R137). -/
def State.writeYmm (s : State) (i : BitVec 4) (v : BitVec 256) : State :=
  { s with ymm := s.ymm.set i.toNat v }

/-- `YMM[i][127:0]` replaced, `YMM[i][255:128]` kept (R10, R135). -/
def State.writeXmmKeep (s : State) (i : BitVec 4) (v : BitVec 128) : State :=
  s.writeYmm i (field (s.readYmm i) 128 128 ++ v)

/-- `YMM[i][127:0]` replaced, `YMM[i][255:128]` zeroed (R136). -/
def State.writeXmmZero (s : State) (i : BitVec 4) (v : BitVec 128) : State :=
  s.writeYmm i (0#128 ++ v)

/-- The x87 side effects of a completed `MMX64` form that wrote `MM[i]` (R31, R138). -/
def State.touchX87 (s : State) (i : BitVec 3) : State :=
  { s with
    x87Status := clearTop s.x87Status
    x87Tag := 0#16
    x87Hi := s.x87Hi.set i.toNat 0xFFFF#16 }

/-! ### Instruction pointer (R26) -/

/-- An address as the mode keeps it: 64 bits, or the low 32 bits zero-extended (R26, R27, log 23). -/
def wrap (m : Mode) (a : Word64) : Word64 :=
  match m with
  | .mode64 => a
  | .mode32 => (a.setWidth 32).setWidth 64

/-- The address of the next instruction, `ip + len` (R26). -/
def State.nextIp (s : State) (m : Mode) (len : Nat) : Word64 :=
  wrap m (s.ip + BitVec.ofNat 64 len)

/-- `ip <- ip + len` (R26, R140 step 8). -/
def State.advance (s : State) (m : Mode) (len : Nat) : State :=
  { s with ip := s.nextIp m len }

end Sys2Proof.Machine
end

