-- ==== Sys2Proof/Machine/Operands.lean ====
section
/-! DEFINITION. Operand forms: register numbers (30_encoding.md R103), memory addresses (R106 to
R110, R114) and the read of a memory operand with its checks (20_memory.md R55, R56). -/

namespace Sys2Proof.Machine

/-! ### Register numbers (R103) -/

def rexR (e : LegacyEnc) : Bool := match e.rex with | some r => r.r | none => false
def rexX (e : LegacyEnc) : Bool := match e.rex with | some r => r.x | none => false
def rexB (e : LegacyEnc) : Bool := match e.rex with | some r => r.b | none => false

def vexR (e : VexEnc) : Bool := match e.form with | .two r => r | .three r _ _ _ => r
def vexX (e : VexEnc) : Bool := match e.form with | .two _ => false | .three _ x _ _ => x
def vexB (e : VexEnc) : Bool := match e.form with | .two _ => false | .three _ _ b _ => b

/-! ### Address size and segment (R110, R114) -/

/-- The address size in force (R106, R114). -/
inductive AddrSize where
  | a16 | a32 | a64
deriving DecidableEq, Repr

/-- 64 in `Mode64`, 32 in `Mode32`; with 67H one size smaller (R114). -/
def addrSize (m : Mode) (ps : List Prefix) : AddrSize :=
  match m, ps.contains .addrSize with
  | .mode64, false => .a64
  | .mode64, true => .a32
  | .mode32, false => .a32
  | .mode32, true => .a16

/-- A sum reduced modulo `2^a` and zero-extended (R106, R107, R114). -/
def AddrSize.reduce : AddrSize → Word64 → Word64
  | .a16, a => (a.setWidth 16).setWidth 64
  | .a32, a => (a.setWidth 32).setWidth 64
  | .a64, a => a

/-- The segment override that counts: in `Mode64` only FS and GS do (R110). -/
def segOverride (m : Mode) : List Prefix → Option Seg
  | [] => none
  | .seg s :: t =>
    match m, s with
    | .mode64, .fs => some .fs
    | .mode64, .gs => some .gs
    | .mode64, _ => segOverride m t
    | .mode32, _ => some s
  | _ :: t => segOverride m t

/-- The default segment: SS for a base of rSP or rBP, else DS (R110), and the table of R114 for
16-bit addressing. `b` is REX.B or VEX.B. -/
def defaultSeg (b : Bool) : MemForm → Seg
  | .base rm _ => if rm = 5#3 ∧ b = false then .ss else .ds
  | .disp32 _ => .ds
  | .sib _ _ bse _ => if (bse = 4#3 ∨ bse = 5#3) ∧ b = false then .ss else .ds
  | .sibNoBase _ _ _ => .ds
  | .base16 rm _ => if rm = 2#3 ∨ rm = 3#3 ∨ rm = 6#3 then .ss else .ds
  | .disp16 _ => .ds

/-- The segment of a memory operand (R110). -/
def segmentOf (m : Mode) (ps : List Prefix) (b : Bool) (f : MemForm) : Seg :=
  match segOverride m ps with
  | some s => s
  | none => defaultSeg b f

/-- The number of a segment register (R28). -/
def segIndex : Seg → Fin 6
  | .es => 0 | .cs => 1 | .ss => 2 | .ds => 3 | .fs => 4 | .gs => 5

/-- `SegBase`: in `Mode64` only FS and GS keep a base (R28). -/
def State.segBase (s : State) (m : Mode) (g : Seg) : Word64 :=
  match m, g with
  | .mode64, .fs => s.segs[segIndex .fs].base
  | .mode64, .gs => s.segs[segIndex .gs].base
  | .mode64, _ => 0#64
  | .mode32, g => s.segs[segIndex g].base

/-! ### Effective address (R106 to R109, R114) -/

def dispValue : Disp → Word64
  | .none => 0#64
  | .disp8 d => d.signExtend 64
  | .disp32 d => d.signExtend 64

def disp16Value : Disp16 → Word64
  | .none => 0#64
  | .disp8 d => d.signExtend 64
  | .disp16 d => d.signExtend 64

/-- The scaled index of an SIB byte; index field 100 with `X = 0` means no index (R109). -/
def State.sibIndex (s : State) (x : Bool) (ss : BitVec 2) (index : BitVec 3) : Word64 :=
  if extend3 x index = 4#4 then 0#64 else s.readGpr (extend3 x index) <<< ss.toNat

/-- The base expression of 16-bit addressing (R114): BX is register 3, BP 5, SI 6, DI 7. -/
def State.base16 (s : State) (rm : BitVec 3) : Word64 :=
  match rm with
  | 0#3 => s.readGpr 3#4 + s.readGpr 6#4
  | 1#3 => s.readGpr 3#4 + s.readGpr 7#4
  | 2#3 => s.readGpr 5#4 + s.readGpr 6#4
  | 3#3 => s.readGpr 5#4 + s.readGpr 7#4
  | 4#3 => s.readGpr 6#4
  | 5#3 => s.readGpr 7#4
  | 6#3 => s.readGpr 5#4
  | 7#3 => s.readGpr 3#4

/-- The sum an addressing form writes, before it is reduced to the address size. `x` and `b` are
the extension bits of REX or VEX; `len` is the instruction's length, for RIP-relative operands. -/
def State.addressSum (s : State) (m : Mode) (x b : Bool) (len : Nat) : MemForm → Word64
  | .base rm d => s.readGpr (extend3 b rm) + dispValue d
  | .disp32 d =>
    match m with
    | .mode64 => s.nextIp .mode64 len + d.signExtend 64
    | .mode32 => d.signExtend 64
  | .sib ss idx bse d => s.readGpr (extend3 b bse) + s.sibIndex x ss idx + dispValue d
  | .sibNoBase ss idx d => d.signExtend 64 + s.sibIndex x ss idx
  | .base16 rm d => s.base16 rm + disp16Value d
  | .disp16 d => d.signExtend 64

/-- Where a memory operand lies: its segment, effective address and linear address (R56). -/
structure Place where
  seg : Seg
  ea : Word64
  lin : Word64
deriving DecidableEq, Repr

/-- The place of a memory operand (R56, R106 to R110, R114). -/
def State.place (s : State) (m : Mode) (ps : List Prefix) (x b : Bool) (len : Nat)
    (f : MemForm) : Place :=
  { seg := segmentOf m ps b f
    ea := (addrSize m ps).reduce (s.addressSum m x b len f)
    lin := wrap m (s.segBase m (segmentOf m ps b f)
      + (addrSize m ps).reduce (s.addressSum m x b len f)) }

/-! ### The checks on a memory operand (R55, R56, R184 to R186, R188) -/

/-- Bits 63 down to 47 all equal (R56), on an address as a number; no number from `2^64` on is one. -/
def canonical (a : Nat) : Bool :=
  decide (a < 2 ^ 47) || (decide (2 ^ 64 - 2 ^ 47 ≤ a) && decide (a < 2 ^ 64))

/-- Every byte of an `n`-byte operand has a legal address: canonical in `Mode64`; within the
segment limit and below `2^32` in `Mode32` (R56, R184, logs 12 and 13). -/
def State.legal (s : State) (m : Mode) (p : Place) (n : Nat) : Bool :=
  match m with
  | .mode64 => canonical p.lin.toNat && canonical (p.lin.toNat + (n - 1))
  | .mode32 =>
    decide (p.ea.toNat + (n - 1) ≤ s.segs[segIndex p.seg].limit.toNat)
      && decide (p.lin.toNat + (n - 1) < 2 ^ 32)

/-- The exception of a refused address: #SS(0) in SS, else #GP(0) (R56, R110). -/
def segmentFault : Seg → Fault
  | .ss => .stackSegment
  | _ => .generalProtection

/-- The #PF of a data read of an absent byte at `a` (R189): P, W/R, RSVD and I/D are 0, U/S says
privilege level 3. -/
def State.readPageFault (s : State) (a : Nat) : Fault :=
  .pageFault ⟨false, false, decide (s.cpl = 3#2), false, false⟩ (BitVec.ofNat 64 a)

/-- `Translate`: identity (R56, decision D11). -/
def physical (lin : Word64) : Nat := lin.toNat

/-- The operand of this class must be 16-byte aligned (R55). -/
def needs16 (c : EncClass) : Bool := c == .sse128

/-- The operand of this class is under alignment checking (R55). -/
def State.checks8 (s : State) (c : EncClass) : Bool := c == .mmx64 && s.alignmentChecking

/-- `MemRead` of `n` bytes by an instruction of class `c` (R56). The segment checks and the 16-byte
rule come first; the place of #AC(0) before or after #PF is the free value (R188, log 14). R188 puts
the address check and the 16-byte check in one group without an order. DESIGN CHOICE (log 31): the
address first, so an `SSE128` operand in SS with both faults raises #SS(0). -/
def State.memRead (s : State) (m : Mode) (c : EncClass) (p : Place) (n : Nat) :
    Except Fault (BitVec (8 * n)) :=
  if !s.legal m p n then .error (segmentFault p.seg)
  else if needs16 c && p.lin.toNat % 16 != 0 then .error .generalProtection
  else
    match s.checks8 c && p.lin.toNat % 8 != 0, s.mem.readLE (physical p.lin) n with
    | false, .ok v => .ok v
    | false, .error a => .error (s.readPageFault a)
    | true, .ok _ => .error .alignmentCheck
    | true, .error a =>
      if Config.alignmentBeforePage s.ip p.lin then .error .alignmentCheck
      else .error (s.readPageFault a)

/-! ### The second source operand of each class (R105, R134 to R137) -/

/-- `mm/m64` (R134): REX.B does not extend an MMX register number (R103). -/
def State.mmxSource (s : State) (m : Mode) (e : LegacyEnc) (rm : RegMem) :
    Except Fault (BitVec 64) :=
  match rm with
  | .reg r => .ok (s.readMm r)
  | .mem f => s.memRead m .mmx64 (s.place m e.prefixes (rexX e) (rexB e) (legacyLength e rm) f) 8

/-- `xmm2/m128` of the legacy form (R135). -/
def State.sseSource (s : State) (m : Mode) (e : LegacyEnc) (rm : RegMem) :
    Except Fault (BitVec 128) :=
  match rm with
  | .reg r => .ok (s.readXmm (extend3 (rexB e) r))
  | .mem f => s.memRead m .sse128 (s.place m e.prefixes (rexX e) (rexB e) (legacyLength e rm) f) 16

/-- `xmm3/m128` of the VEX form (R136). -/
def State.xmmSource (s : State) (m : Mode) (e : VexEnc) (rm : RegMem) :
    Except Fault (BitVec 128) :=
  match rm with
  | .reg r => .ok (s.readXmm (extend3 (vexB e) r))
  | .mem f => s.memRead m .vex128 (s.place m e.prefixes (vexX e) (vexB e) (vexLength e rm) f) 16

/-- `ymm3/m256` (R137). -/
def State.ymmSource (s : State) (m : Mode) (e : VexEnc) (rm : RegMem) :
    Except Fault (BitVec 256) :=
  match rm with
  | .reg r => .ok (s.readYmm (extend3 (vexB e) r))
  | .mem f => s.memRead m .vex256 (s.place m e.prefixes (vexX e) (vexB e) (vexLength e rm) f) 32

end Sys2Proof.Machine
end

