-- ==== Sys2Proof/Machine/PackedAdd.lean ====
section
/-! DEFINITION. What the twelve encodings share (40_packed_add_common.md): the lane addition, the
checks before an instruction may run (60_exceptions.md R183 to R186), and one operation per
encoding class. -/

namespace Sys2Proof.Machine

/-! ### The arithmetic (R130, R131) -/

/-- Lane `k` of width `w`: bits `[w*k + w-1 : w*k]` (R15, R130). -/
def lane {n : Nat} (w : Nat) (v : BitVec n) (k : Nat) : BitVec w := field v (w * k) w

/-- The lowest `k` lanes of the sum, zeros above. -/
def packedAddLow {n : Nat} (w : Nat) (a b : BitVec n) : Nat → BitVec n
  | 0 => 0#n
  | k + 1 => packedAddLow w a b k ||| ((lane w a k + lane w b k).setWidth n <<< (w * k))

/-- `PackedAdd(w, n, a, b)`: every lane is the sum of the two lanes modulo `2^w` (R130). -/
def packedAdd {n : Nat} (w : Nat) (a b : BitVec n) : BitVec n := packedAddLow w a b (n / w)

/-! ### Checks (R140 steps 2 and 3) -/

/-- The CPUID feature flags of the class (R183); R221 asks of `VEX256` all it asks of `VEX128`, AVX
among it, and AVX2 (log 33). -/
def available (c : EncClass) (s : State) : Bool :=
  match c with
  | .mmx64 => s.cpu.hasMmx
  | .sse128 => s.cpu.hasSse2
  | .vex128 => s.cpu.hasAvx
  | .vex256 => s.cpu.hasAvx && s.cpu.hasAvx2

/-- The #UD conditions of the environment: R184 for `SSE128`, R185 for the VEX classes, R186 for
`MMX64`. -/
def environmentUD (c : EncClass) (s : State) : Bool :=
  match c with
  | .mmx64 => s.crEM
  | .sse128 => s.crEM || !s.osfxsr
  | .vex128 => !s.osxsave || !s.avxStateEnabled
  | .vex256 => !s.osxsave || !s.avxStateEnabled

/-- `EnvCheck` after the feature flag, in the order of R188: #UD, #NM, #MF (R183 to R186). -/
def checks (c : EncClass) (s : State) : Option Fault :=
  if !available c s || environmentUD c s then some .invalidOpcode
  else if s.crTS then some .deviceNotAvailable
  else if c == .mmx64 && s.x87ErrorPending then some .x87FloatingPoint
  else none

/-! ### One operation per class (R134 to R137, in the order of R140) -/

/-- Class `MMX64`: `mm, mm/m64` (R134, R138). -/
def addMmx (w : Width) (e : LegacyEnc) (reg : BitVec 3) (rm : RegMem) (s : State) : Result :=
  match s.mode with
  | .error o => .refused (.modeOutOfScope o)
  | .ok m =>
    match checks .mmx64 s with
    | some f => raise f
    | none =>
      match s.mmxSource m e rm with
      | .error f => raise f
      | .ok b =>
        .next (((s.writeMm reg (packedAdd w.bits (s.readMm reg) b)).touchX87 reg).advance m
          (legacyLength e rm))

/-- Class `SSE128`: `xmm1, xmm2/m128`, the upper half kept (R135). -/
def addSse (w : Width) (e : LegacyEnc) (reg : BitVec 3) (rm : RegMem) (s : State) : Result :=
  match s.mode with
  | .error o => .refused (.modeOutOfScope o)
  | .ok m =>
    match checks .sse128 s with
    | some f => raise f
    | none =>
      match s.sseSource m e rm with
      | .error f => raise f
      | .ok b =>
        .next ((s.writeXmmKeep (extend3 (rexR e) reg)
          (packedAdd w.bits (s.readXmm (extend3 (rexR e) reg)) b)).advance m (legacyLength e rm))

/-- Class `VEX128`: `xmm1, xmm2, xmm3/m128`, the upper half zeroed (R136). -/
def addXmm (w : Width) (e : VexEnc) (reg : BitVec 3) (rm : RegMem) (s : State) : Result :=
  match s.mode with
  | .error o => .refused (.modeOutOfScope o)
  | .ok m =>
    match checks .vex128 s with
    | some f => raise f
    | none =>
      match s.xmmSource m e rm with
      | .error f => raise f
      | .ok b =>
        .next ((s.writeXmmZero (extend3 (vexR e) reg)
          (packedAdd w.bits (s.readXmm e.vvvv) b)).advance m (vexLength e rm))

/-- Class `VEX256`: `ymm1, ymm2, ymm3/m256` (R137; no bits above 255 at VLMAX = 256). -/
def addYmm (w : Width) (e : VexEnc) (reg : BitVec 3) (rm : RegMem) (s : State) : Result :=
  match s.mode with
  | .error o => .refused (.modeOutOfScope o)
  | .ok m =>
    match checks .vex256 s with
    | some f => raise f
    | none =>
      match s.ymmSource m e rm with
      | .error f => raise f
      | .ok b =>
        .next ((s.writeYmm (extend3 (vexR e) reg)
          (packedAdd w.bits (s.readYmm e.vvvv) b)).advance m (vexLength e rm))

end Sys2Proof.Machine
end

