-- ==== Sys2Proof/Machine/Paddb.lean ====
section
/-! DEFINITION. PADDB and VPADDB (41_paddb.md): the four encodings of element width `byte`. -/

namespace Sys2Proof.Machine

/-- PADDB mm, mm/m64 (R150). -/
def execPaddbMmx (e : LegacyEnc) (reg : BitVec 3) (rm : RegMem) (s : State) : Result :=
  addMmx .byte e reg rm s

/-- PADDB xmm1, xmm2/m128 (R151). -/
def execPaddbSse (e : LegacyEnc) (reg : BitVec 3) (rm : RegMem) (s : State) : Result :=
  addSse .byte e reg rm s

/-- VPADDB xmm1, xmm2, xmm3/m128 (R152). -/
def execVpaddbXmm (e : VexEnc) (reg : BitVec 3) (rm : RegMem) (s : State) : Result :=
  addXmm .byte e reg rm s

/-- VPADDB ymm1, ymm2, ymm3/m256 (R153). -/
def execVpaddbYmm (e : VexEnc) (reg : BitVec 3) (rm : RegMem) (s : State) : Result :=
  addYmm .byte e reg rm s

end Sys2Proof.Machine
end

