-- ==== Sys2Proof/Machine/Paddd.lean ====
section
/-! DEFINITION. PADDD and VPADDD (43_paddd.md): the four encodings of element width `dword`. -/

namespace Sys2Proof.Machine

/-- PADDD mm, mm/m64 (R170). -/
def execPadddMmx (e : LegacyEnc) (reg : BitVec 3) (rm : RegMem) (s : State) : Result :=
  addMmx .dword e reg rm s

/-- PADDD xmm1, xmm2/m128 (R171). -/
def execPadddSse (e : LegacyEnc) (reg : BitVec 3) (rm : RegMem) (s : State) : Result :=
  addSse .dword e reg rm s

/-- VPADDD xmm1, xmm2, xmm3/m128 (R172). -/
def execVpadddXmm (e : VexEnc) (reg : BitVec 3) (rm : RegMem) (s : State) : Result :=
  addXmm .dword e reg rm s

/-- VPADDD ymm1, ymm2, ymm3/m256 (R173). -/
def execVpadddYmm (e : VexEnc) (reg : BitVec 3) (rm : RegMem) (s : State) : Result :=
  addYmm .dword e reg rm s

end Sys2Proof.Machine
end

