-- ==== Sys2Proof/Machine/Paddw.lean ====
section
/-! DEFINITION. PADDW and VPADDW (42_paddw.md): the four encodings of element width `word`. -/

namespace Sys2Proof.Machine

/-- PADDW mm, mm/m64 (R160). -/
def execPaddwMmx (e : LegacyEnc) (reg : BitVec 3) (rm : RegMem) (s : State) : Result :=
  addMmx .word e reg rm s

/-- PADDW xmm1, xmm2/m128 (R161). -/
def execPaddwSse (e : LegacyEnc) (reg : BitVec 3) (rm : RegMem) (s : State) : Result :=
  addSse .word e reg rm s

/-- VPADDW xmm1, xmm2, xmm3/m128 (R162). -/
def execVpaddwXmm (e : VexEnc) (reg : BitVec 3) (rm : RegMem) (s : State) : Result :=
  addXmm .word e reg rm s

/-- VPADDW ymm1, ymm2, ymm3/m256 (R163). -/
def execVpaddwYmm (e : VexEnc) (reg : BitVec 3) (rm : RegMem) (s : State) : Result :=
  addYmm .word e reg rm s

end Sys2Proof.Machine
end

