-- ==== Sys2Proof/Machine/Dispatch.lean ====
section
/-! DEFINITION. One arm per instruction, each one direct call of its meaning. -/

namespace Sys2Proof.Machine

/-- What an instruction does in a state (40_packed_add_common.md R140 steps 2 to 8). -/
def exec (i : Instr) (s : State) : Host.Outcome State Fault Refusal :=
  match i with
  | .paddbMmx e reg rm => Sys2Proof.Machine.execPaddbMmx e reg rm s
  | .paddbSse e reg rm => Sys2Proof.Machine.execPaddbSse e reg rm s
  | .paddwMmx e reg rm => Sys2Proof.Machine.execPaddwMmx e reg rm s
  | .paddwSse e reg rm => Sys2Proof.Machine.execPaddwSse e reg rm s
  | .padddMmx e reg rm => Sys2Proof.Machine.execPadddMmx e reg rm s
  | .padddSse e reg rm => Sys2Proof.Machine.execPadddSse e reg rm s
  | .vpaddbXmm e reg rm => Sys2Proof.Machine.execVpaddbXmm e reg rm s
  | .vpaddwXmm e reg rm => Sys2Proof.Machine.execVpaddwXmm e reg rm s
  | .vpadddXmm e reg rm => Sys2Proof.Machine.execVpadddXmm e reg rm s
  | .vpaddbYmm e reg rm => Sys2Proof.Machine.execVpaddbYmm e reg rm s
  | .vpaddwYmm e reg rm => Sys2Proof.Machine.execVpaddwYmm e reg rm s
  | .vpadddYmm e reg rm => Sys2Proof.Machine.execVpadddYmm e reg rm s

end Sys2Proof.Machine
end

