-- ==== Sys2Proof/Machine/Fetch.lean ====
section
/-! DEFINITION. Fetching and decoding the instruction at `ip` (40_packed_add_common.md R140 step 1;
60_exceptions.md R188; 10_state.md R26; decisions D12, D19, D20). -/

namespace Sys2Proof.Machine

/-- `ip` as the mode sees it (R26). -/
def State.codeIp (s : State) (m : Mode) : Word64 := wrap m s.ip

/-- The linear address of the byte at `ip` (R56 with the CS base). -/
def State.codeStart (s : State) (m : Mode) : Nat :=
  (wrap m (s.segBase m .cs + s.codeIp m)).toNat

/-- The offset `ip + k` lies past the code segment's limit; only `Mode32` has one (R184, R188). -/
def State.pastCodeLimit (s : State) (m : Mode) (k : Nat) : Bool :=
  match m with
  | .mode64 => false
  | .mode32 =>
    decide (s.segs[segIndex .cs].limit.toNat < (s.codeIp .mode32).toNat + k)

/-- The number is an address of code: canonical in `Mode64`, below `2^32` in `Mode32`
(R26, decision D12). -/
def codeAddress (m : Mode) (a : Nat) : Bool :=
  match m with
  | .mode64 => canonical a
  | .mode32 => decide (a < 2 ^ 32)

/-- The instruction byte at `ip + k`, or why there is none: past the limit #GP(0) (R188), across
the top a refusal (decision D12), not held a refusal (decision D20). -/
def State.codeByte (s : State) (m : Mode) (k : Nat) : Except Stop Byte :=
  if !codeAddress m (s.codeStart m + k) then .error (.refused .codeCrossesTop)
  else if s.pastCodeLimit m k then .error (.fault .generalProtection)
  else
    match s.mem.read (s.codeStart m + k) with
    | some b => .ok b
    | none => .error (.refused .fetchOutsideText)

/-- At most `n` instruction bytes from `ip + k` on, and what stops the fetch after them: after the
fifteenth byte, #GP(0) for an instruction that is longer (R115 step 6, R116). -/
def State.codeBytes (s : State) (m : Mode) (k : Nat) : Nat → List Byte × Stop
  | 0 => ([], .fault .generalProtection)
  | n + 1 =>
    match s.codeByte m k with
    | .ok b => (b :: (s.codeBytes m (k + 1) n).1, (s.codeBytes m (k + 1) n).2)
    | .error stop => ([], stop)

/-- In `Mode64`, `ip` must be canonical, and so must the address after the instruction (R26,
R188). -/
def State.ipCanonical (s : State) (m : Mode) (len : Nat) : Bool :=
  match m with
  | .mode64 => canonical (s.ip.toNat + len)
  | .mode32 => true

/-- The instruction at `ip` (R140 step 1). R26 says that a non-canonical successor address faults, and
R188 does not list it. DESIGN CHOICE (log 32): it stands after decoding's #UD and refusals, and
before every check and operand fault of the instruction. -/
def State.fetch (s : State) (m : Mode) : Except Stop Instr :=
  if !s.ipCanonical m 0 then .error (.fault .generalProtection)
  else
    match decode m s.cpu.admit16 (s.codeBytes m 0 Config.maxLength).1 with
    | .instr i _ =>
      if s.ipCanonical m i.length then .ok i else .error (.fault .generalProtection)
    | .invalidOpcode => .error (.fault .invalidOpcode)
    | .reject r => .error (.refused (.notAnInstruction r))
    | .truncated => .error (s.codeBytes m 0 Config.maxLength).2

end Sys2Proof.Machine
end

