-- ==== Sys2Proof/Machine/Launch.lean ====
section
/-! DEFINITION. The launch: how a program comes to run (10_state.md R36, 70_reset_and_hazards.md
R221, R222, decision D14, log 8). The spec's runs start from a launch state, not from reset; it is
set up from outside the machine, and no step does it. -/

namespace Sys2Proof.Machine

/-- A flat segment: base 0, the whole 32-bit range (decision D10). -/
def flatSeg : SegReg := { base := 0#64, limit := 0xFFFFFFFF#32 }

/-- CR0 of a launch: PE set, PG set for `Mode64`, EM and TS clear (R221). -/
def launchCr0 (m : Mode) (v : BitVec 32) : BitVec 32 :=
  match m with
  | .mode64 => (v &&& 0xFFFFFFF3#32) ||| 0x80000001#32
  | .mode32 => (v &&& 0xFFFFFFF3#32) ||| 0x00000001#32

/-- EFER of a launch: LME and LMA set for `Mode64`, clear for `Mode32` (R29, R221, R222, log 34). -/
def launchEfer (m : Mode) (v : BitVec 64) : BitVec 64 :=
  match m with
  | .mode64 => v ||| 0x500#64
  | .mode32 => v &&& 0xFFFFFFFFFFFFFAFF#64

/-- The state made ready to run every class in mode `m` (R221): the control bits set, EFLAGS.VM
clear, system-management mode left, flat segments, all else as it was. -/
def State.launch (s : State) (m : Mode) : State :=
  { s with
    eflags := s.eflags &&& 0xFFFDFFFF#32
    cr0 := launchCr0 m s.cr0
    cr4 := s.cr4 ||| 0x00040200#32
    xcr0 := s.xcr0 ||| 6#64
    efer := launchEfer m s.efer
    csL := decide (m = .mode64)
    csD := decide (m = .mode32)
    smm := false
    segs := Vector.replicate 6 flatSeg }

/-- Bytes stored from an address on. -/
def State.placeBytes (s : State) (a : Nat) (bytes : List Byte) : State :=
  { s with mem := s.mem.writeBytes a bytes }

/-- The launch data (R58: the launch memory holds "the program text and the data the program
reads"): 32 zero bytes, for address 0, where a ModRM byte of zeros points after reset. -/
def launchData : List Byte := List.replicate 32 0#8

/-- A text made the next one to run: stored at `ip` when the mode is one the spec covers; in any
other mode, as after reset, first the launch into `Mode64` with its data (log 8). -/
def State.loadText (s : State) (text : List Byte) : State :=
  match s.mode with
  | .ok m => s.placeBytes (s.codeStart m) text
  | .error _ =>
    ((s.launch .mode64).placeBytes 0 launchData).placeBytes ((s.launch .mode64).codeStart .mode64) text

end Sys2Proof.Machine
end

