-- ==== Sys2Proof/Machine/Step.lean ====
section
/-! DEFINITION. One step of the processor (40_packed_add_common.md R140), and a word of the opcode
table placed where it is fetched next. -/

namespace Sys2Proof.Machine

/-- One step: refuse a mode out of scope (decision D1), fetch and decode the instruction at `ip`,
execute it (R140). Nothing else takes a step: no interrupt is delivered (decision D18). -/
def step (s : State) : Host.Outcome State Fault Refusal :=
  match s.mode with
  | .error o => .refused (.modeOutOfScope o)
  | .ok m =>
    match s.fetch m with
    | .error stop => stop.result
    | .ok i => exec i s

/-- `s` with a word of the opcode table as its next instruction (logs 8 and 17). -/
def State.withFetchWord (s : State) (nbits w : Nat) : State :=
  s.loadText (tableBytes nbits w)

end Sys2Proof.Machine
end

