-- ==== Sys2Proof/Machine/Init.lean ====
section
/-! DEFINITION. The state after INIT (10_state.md R35, the column "after INIT"). INIT comes from
outside the processor (log 35): no step performs it. -/

namespace Sys2Proof.Machine

/-- CR0 after INIT: as after reset, "except CD, NW kept" (R35).
PRESUMED (log 35): CD is bit 30 and NW bit 29, which the spec does not number. -/
def initCr0 (old : BitVec 32) : BitVec 32 :=
  (State.reset.cr0 &&& 0x9FFFFFFF#32) ||| (old &&& 0x60000000#32)

/-- Registers with the upper halves given and the lower halves of `old`. -/
def withUpper (upper : Vector (BitVec 128) 16) (old : Vector (BitVec 256) 16) :
    Vector (BitVec 256) 16 :=
  ⟨(List.zipWith (fun hi v => hi ++ field v 0 128) upper.toList old.toList).toArray, by simp⟩

/-- The machine right after INIT in state `s` (R35): the MMX, XMM and x87 registers, MXCSR and memory
unchanged, all else as after reset. R35 leaves the upper YMM halves and XCR0 unspecified, so their
values are arguments, which nothing constrains. -/
def State.init (s : State) (upper : Vector (BitVec 128) 16) (xcr0 : BitVec 64) : State :=
  { State.reset with
    mm := s.mm
    ymm := withUpper upper s.ymm
    mxcsr := s.mxcsr
    x87Status := s.x87Status
    x87Tag := s.x87Tag
    x87Hi := s.x87Hi
    cr0 := initCr0 s.cr0
    xcr0 := xcr0
    mem := s.mem
    cpu := s.cpu }

end Sys2Proof.Machine
end

