-- ==== Sys2Proof/Safety.lean ====
section
/-! DEFINITION. What claims are stated with: when an encoding class may run, when an operand can be
read, and the invariant every step keeps. -/

namespace Sys2Proof.Machine

/-- What must hold for a class not to fault before its operands are read
(70_reset_and_hazards.md R221, less the mode and the operand). -/
def Ready (c : EncClass) (s : State) : Prop :=
  available c s = true ∧ bitAt s.cr0 3 = false ∧
    match c with
    | .mmx64 => bitAt s.cr0 2 = false ∧ bitAt s.x87Status 7 = false
    | .sse128 => bitAt s.cr0 2 = false ∧ bitAt s.cr4 9 = true
    | .vex128 => bitAt s.cr4 18 = true ∧ bitAt s.xcr0 1 = true ∧ bitAt s.xcr0 2 = true
    | .vex256 => bitAt s.cr4 18 = true ∧ bitAt s.xcr0 1 = true ∧ bitAt s.xcr0 2 = true

/-- The `n` bytes from `a` on are those of `v`, least significant first (20_memory.md R51). -/
def Holds (mem : Memory) (a n : Nat) (v : BitVec (8 * n)) : Prop :=
  ∀ k < n, mem.read (a + k) = some (field v (8 * k) 8)

/-- A memory operand of class `c` at place `p` can be read and its value is `v`: legal address,
aligned where its class asks for it, every byte held (20_memory.md R55, R56). -/
def MemOperand (s : State) (m : Mode) (c : EncClass) (p : Place) (n : Nat)
    (v : BitVec (8 * n)) : Prop :=
  s.legal m p n = true ∧ (c = .sse128 → p.lin.toNat % 16 = 0) ∧
    (c = .mmx64 → s.alignmentChecking = true → p.lin.toNat % 8 = 0) ∧
    Holds s.mem p.lin.toNat n v

/-- The value of `mm/m64` is `b` (R134). -/
def MmxOperand (s : State) (m : Mode) (e : LegacyEnc) (rm : RegMem) (b : BitVec 64) : Prop :=
  match rm with
  | .reg r => b = s.readMm r
  | .mem f =>
    MemOperand s m .mmx64 (s.place m e.prefixes (rexX e) (rexB e) (legacyLength e rm) f) 8 b

/-- The value of `xmm2/m128` of a legacy form is `b` (R135). -/
def SseOperand (s : State) (m : Mode) (e : LegacyEnc) (rm : RegMem) (b : BitVec 128) : Prop :=
  match rm with
  | .reg r => b = s.readXmm (extend3 (rexB e) r)
  | .mem f =>
    MemOperand s m .sse128 (s.place m e.prefixes (rexX e) (rexB e) (legacyLength e rm) f) 16 b

/-- The value of `xmm3/m128` of a VEX form is `b` (R136). -/
def XmmOperand (s : State) (m : Mode) (e : VexEnc) (rm : RegMem) (b : BitVec 128) : Prop :=
  match rm with
  | .reg r => b = s.readXmm (extend3 (vexB e) r)
  | .mem f =>
    MemOperand s m .vex128 (s.place m e.prefixes (vexX e) (vexB e) (vexLength e rm) f) 16 b

/-- The value of `ymm3/m256` is `b` (R137). -/
def YmmOperand (s : State) (m : Mode) (e : VexEnc) (rm : RegMem) (b : BitVec 256) : Prop :=
  match rm with
  | .reg r => b = s.readYmm (extend3 (vexB e) r)
  | .mem f =>
    MemOperand s m .vex256 (s.place m e.prefixes (vexX e) (vexB e) (vexLength e rm) f) 32 b

/-- The instruction pointer is one the mode has: canonical in `Mode64`, 32 bits wide in `Mode32`
(10_state.md R26). -/
def IpInRange (s : State) : Prop :=
  match s.mode with
  | .ok .mode64 => canonical s.ip.toNat = true
  | .ok .mode32 => s.ip.toNat < 2 ^ 32
  | .error _ => True

/-- The invariant of the machine: memory in canonical form, the instruction pointer in range. -/
def Inv (s : State) : Prop := s.mem.wf ∧ IpInRange s

end Sys2Proof.Machine
end

