-- ==== Sys2Proof/Certificates/Slice0/Obligations.lean ====
section
/-! DEFINITION. The statements for the provers, in the order of OBLIGATIONS.json. Each docstring names
the rule of spec/ it comes from; "GK" says that the spec marks that rule, or the part used, as
general knowledge, and "D<n>" that it is a decision of spec/92_eei_decisions.md. -/

namespace Sys2Proof.Claims

open Sys2Proof.Machine

/-! ### What the statements speak of -/

/-- `r` is the sum of `a` and `b` under both readings of R132: as unsigned numbers modulo `2^w`, and
as two's-complement numbers wrapped into the range of `w` bits. -/
def WrappedSum (w : Nat) (a b r : BitVec w) : Prop :=
  r.toNat = (a.toNat + b.toNat) % 2 ^ w ∧ r.toInt = (a.toInt + b.toInt).bmod (2 ^ w)

/-- Every lane of `r` is the wrapped sum of the lanes of `a` and `b` (R130, R132). -/
def LanesAdd {n : Nat} (w : Nat) (a b r : BitVec n) : Prop :=
  ∀ k < n / w, WrappedSum w (lane w a k) (lane w b k) (lane w r k)

/-- TOP is 0 and every other bit of the x87 status word is kept (R31). -/
def TopCleared (old new : BitVec 16) : Prop :=
  field new 11 3 = 0#3 ∧ ∀ j, j < 11 ∨ 14 ≤ j → new.getLsbD j = old.getLsbD j

/-- The register an `SSE128`, `VEX128` or `VEX256` form writes (R103). -/
def dest : Instr → BitVec 4
  | .paddbMmx _ r _ | .paddwMmx _ r _ | .padddMmx _ r _ => extend3 false r
  | .paddbSse e r _ | .paddwSse e r _ | .padddSse e r _ => extend3 (rexR e) r
  | .vpaddbXmm e r _ | .vpaddwXmm e r _ | .vpadddXmm e r _
  | .vpaddbYmm e r _ | .vpaddwYmm e r _ | .vpadddYmm e r _ => extend3 (vexR e) r

/-- Lane `k` of the destination register (R134 to R137). -/
def destLane (i : Instr) (s : State) (k : Nat) : Nat :=
  match i.cls with
  | .mmx64 => (lane i.width.bits (s.readMm i.reg) k).toNat
  | .sse128 => (lane i.width.bits (s.readXmm (dest i)) k).toNat
  | .vex128 => (lane i.width.bits (s.readXmm (dest i)) k).toNat
  | .vex256 => (lane i.width.bits (s.readYmm (dest i)) k).toNat

/-- Lane `k` of the first source register: the destination in the legacy forms, `vvvv` in the VEX
forms (R102, R134 to R137). -/
def firstLane (i : Instr) (s : State) (k : Nat) : Nat :=
  match i with
  | .paddbMmx _ r _ | .paddwMmx _ r _ | .padddMmx _ r _ =>
    (lane i.width.bits (s.readMm r) k).toNat
  | .paddbSse e r _ | .paddwSse e r _ | .padddSse e r _ =>
    (lane i.width.bits (s.readXmm (extend3 (rexR e) r)) k).toNat
  | .vpaddbXmm e _ _ | .vpaddwXmm e _ _ | .vpadddXmm e _ _ =>
    (lane i.width.bits (s.readXmm e.vvvv) k).toNat
  | .vpaddbYmm e _ _ | .vpaddwYmm e _ _ | .vpadddYmm e _ _ =>
    (lane i.width.bits (s.readYmm e.vvvv) k).toNat

/-- Both sources are the same register (R139). -/
def SameSourceTwice : Instr → Prop
  | .paddbMmx _ r rm | .paddwMmx _ r rm | .padddMmx _ r rm => rm = .reg r
  | .paddbSse e r rm | .paddwSse e r rm | .padddSse e r rm =>
    ∃ j, rm = .reg j ∧ extend3 (rexB e) j = extend3 (rexR e) r
  | .vpaddbXmm e _ rm | .vpaddwXmm e _ rm | .vpadddXmm e _ rm
  | .vpaddbYmm e _ rm | .vpaddwYmm e _ rm | .vpadddYmm e _ rm =>
    ∃ j, rm = .reg j ∧ extend3 (vexB e) j = e.vvvv

/-- How many bytes the memory form of a class reads (R53). -/
def operandBytes : EncClass → Nat
  | .mmx64 => 8
  | .sse128 => 16
  | .vex128 => 16
  | .vex256 => 32

/-- The place of an instruction's memory operand `f`, computed as its meaning computes it. -/
def operandPlace (s : State) (m : Mode) (f : MemForm) : Instr → Place
  | .paddbMmx e _ rm | .paddwMmx e _ rm | .padddMmx e _ rm
  | .paddbSse e _ rm | .paddwSse e _ rm | .padddSse e _ rm =>
    s.place m e.prefixes (rexX e) (rexB e) (legacyLength e rm) f
  | .vpaddbXmm e _ rm | .vpaddwXmm e _ rm | .vpadddXmm e _ rm
  | .vpaddbYmm e _ rm | .vpaddwYmm e _ rm | .vpadddYmm e _ rm =>
    s.place m e.prefixes (vexX e) (vexB e) (vexLength e rm) f

/-- The state no encoding in scope writes (R24, R25, R27, R28, R29, R52). -/
def SameSurroundings (s t : State) : Prop :=
  t.gpr = s.gpr ∧ t.eflags = s.eflags ∧ t.mxcsr = s.mxcsr ∧ t.cr0 = s.cr0 ∧ t.cr2 = s.cr2 ∧
    t.cr4 = s.cr4 ∧ t.xcr0 = s.xcr0 ∧ t.efer = s.efer ∧ t.csSelector = s.csSelector ∧
    t.csL = s.csL ∧ t.csD = s.csD ∧ t.smm = s.smm ∧ t.segs = s.segs ∧ t.cpu = s.cpu ∧
    ∀ a, t.mem.read a = s.mem.read a

/-- The #UD conditions of a class before its operands are read: the feature flag (R183) and the
control bits of R184 (`SSE128`), R185 (the VEX classes) and R186 (`MMX64`). That `VEX256` needs AVX
beside AVX2 is R221 (log 33). -/
def InvalidHere (c : EncClass) (s : State) : Prop :=
  match c with
  | .mmx64 => s.cpu.hasMmx = false ∨ bitAt s.cr0 2 = true
  | .sse128 => s.cpu.hasSse2 = false ∨ bitAt s.cr0 2 = true ∨ bitAt s.cr4 9 = false
  | .vex128 => s.cpu.hasAvx = false ∨ bitAt s.cr4 18 = false ∨
      ¬(bitAt s.xcr0 1 = true ∧ bitAt s.xcr0 2 = true)
  | .vex256 => s.cpu.hasAvx = false ∨ s.cpu.hasAvx2 = false ∨ bitAt s.cr4 18 = false ∨
      ¬(bitAt s.xcr0 1 = true ∧ bitAt s.xcr0 2 = true)

/-- Alignment checking is on and the operand is under it: `MMX64` only (R55, R186). -/
def CheckedMisaligned (c : EncClass) (s : State) (lin : Word64) : Prop :=
  c = .mmx64 ∧ bitAt s.cr0 18 = true ∧ bitAt s.eflags 18 = true ∧
    field s.csSelector 0 2 = 3#2 ∧ lin.toNat % 8 ≠ 0

/-- The lowest of the `n` bytes from `a` on that the memory does not hold is `a + j`. -/
def LowestMissing (mem : Memory) (a n j : Nat) : Prop :=
  j < n ∧ mem.read (a + j) = none ∧ ∀ i < j, (mem.read (a + i)).isSome = true

/-- The #PF of a data read at `a` (R189): only U/S can be set, at privilege level 3. -/
def dataPageFault (s : State) (a : Nat) : Fault :=
  .pageFault ⟨false, false, field s.csSelector 0 2 == 3#2, false, false⟩ (BitVec.ofNat 64 a)

/-- Bits 63 down to 47 of an address are all equal (R56). -/
def CanonicalBits (a : Word64) : Prop := ∀ j, 47 ≤ j → j < 64 → a.getLsbD j = a.getLsbD 63

/-- Prefixes a VEX form may carry: at most one 67H and one segment override (R81, R115, D15). -/
def BeforeVex (ps : List Prefix) : Prop :=
  Prefix.distinct ps = true ∧ ∀ p ∈ ps, p = .addrSize ∨ ∃ g, p = .seg g

/-- `op` is none of FCH, FDH and FEH (R84). -/
def OtherOpcode (op : Byte) : Prop := op ≠ 0xFC#8 ∧ op ≠ 0xFD#8 ∧ op ≠ 0xFE#8

/-- The width of the address in force (R106, R114). -/
def addressBits (m : Mode) (ps : List Prefix) : Nat :=
  match m with
  | .mode64 => if .addrSize ∈ ps then 32 else 64
  | .mode32 => if .addrSize ∈ ps then 16 else 32

/-- The number a displacement stands for, sign-extended (R108). -/
def dispInt : Disp → Int
  | .none => 0
  | .disp8 d => d.toInt
  | .disp32 d => d.toInt

/-- The same for 16-bit addressing (R108, R114). -/
def disp16Int : Disp16 → Int
  | .none => 0
  | .disp8 d => d.toInt
  | .disp16 d => d.toInt

/-- The scaled index (R109): index field 100 without the extension bit means none. -/
def indexNat (s : State) (x : Bool) (ss : BitVec 2) (index : BitVec 3) : Nat :=
  if x = false ∧ index = 4#3 then 0
  else (s.readGpr (extend3 x index)).toNat * 2 ^ ss.toNat

/-- The registers a 16-bit base expression adds (R114). -/
def base16Nat (s : State) (rm : BitVec 3) : Nat :=
  let bx := (s.readGpr 3#4).toNat
  let bp := (s.readGpr 5#4).toNat
  let si := (s.readGpr 6#4).toNat
  let di := (s.readGpr 7#4).toNat
  if rm = 0#3 then bx + si else if rm = 1#3 then bx + di
  else if rm = 2#3 then bp + si else if rm = 3#3 then bp + di
  else if rm = 4#3 then si else if rm = 5#3 then di
  else if rm = 6#3 then bp else bx

/-- The bytes stand where the step fetches, at addresses it may fetch from. -/
def TextAt (s : State) (m : Mode) (bytes : List Byte) : Prop :=
  ∀ (k : Nat) (h : k < bytes.length), codeAddress m (s.codeStart m + k) = true ∧
    s.pastCodeLimit m k = false ∧ s.mem.read (s.codeStart m + k) = some bytes[k]

/-- Each `MMX64` form `mk` of width `w` completes with its own effect (R134, R138). -/
def MmxAdds (mk : LegacyEnc → BitVec 3 → RegMem → Instr) (w : Nat) : Prop :=
  ∀ (s : State) (m : Mode) (e : LegacyEnc) (reg : BitVec 3) (rm : RegMem) (b : BitVec 64),
    s.mode = .ok m → Ready .mmx64 s → MmxOperand s m e rm b →
    ∃ (r : BitVec 64) (status : BitVec 16),
      LanesAdd w (s.readMm reg) b r ∧ TopCleared s.x87Status status ∧
      exec (mk e reg rm) s = .next { s with
        mm := s.mm.set reg.toNat r
        x87Status := status
        x87Tag := 0#16
        x87Hi := s.x87Hi.set reg.toNat 0xFFFF#16
        ip := s.nextIp m (mk e reg rm).length }

/-- Each `SSE128` form `mk` of width `w` completes with its own effect (R135). -/
def SseAdds (mk : LegacyEnc → BitVec 3 → RegMem → Instr) (w : Nat) : Prop :=
  ∀ (s : State) (m : Mode) (e : LegacyEnc) (reg : BitVec 3) (rm : RegMem) (b : BitVec 128),
    s.mode = .ok m → Ready .sse128 s → SseOperand s m e rm b →
    ∃ v : BitVec 256,
      LanesAdd w (s.readXmm (extend3 (rexR e) reg)) b (field v 0 128) ∧
      field v 128 128 = field (s.readYmm (extend3 (rexR e) reg)) 128 128 ∧
      exec (mk e reg rm) s = .next { s with
        ymm := s.ymm.set (extend3 (rexR e) reg).toNat v
        ip := s.nextIp m (mk e reg rm).length }

/-- Each `VEX128` form `mk` of width `w` completes with its own effect (R136). -/
def XmmAdds (mk : VexEnc → BitVec 3 → RegMem → Instr) (w : Nat) : Prop :=
  ∀ (s : State) (m : Mode) (e : VexEnc) (reg : BitVec 3) (rm : RegMem) (b : BitVec 128),
    s.mode = .ok m → Ready .vex128 s → XmmOperand s m e rm b →
    ∃ v : BitVec 256,
      LanesAdd w (s.readXmm e.vvvv) b (field v 0 128) ∧ field v 128 128 = 0#128 ∧
      exec (mk e reg rm) s = .next { s with
        ymm := s.ymm.set (extend3 (vexR e) reg).toNat v
        ip := s.nextIp m (mk e reg rm).length }

/-- Each `VEX256` form `mk` of width `w` completes with its own effect (R137). -/
def YmmAdds (mk : VexEnc → BitVec 3 → RegMem → Instr) (w : Nat) : Prop :=
  ∀ (s : State) (m : Mode) (e : VexEnc) (reg : BitVec 3) (rm : RegMem) (b : BitVec 256),
    s.mode = .ok m → Ready .vex256 s → YmmOperand s m e rm b →
    ∃ v : BitVec 256,
      LanesAdd w (s.readYmm e.vvvv) b v ∧
      exec (mk e reg rm) s = .next { s with
        ymm := s.ymm.set (extend3 (vexR e) reg).toNat v
        ip := s.nextIp m (mk e reg rm).length }

/-- The last opcode byte of an element width, as R84 gives it. -/
def opcodeByteOfWidth (bits : Nat) : Byte :=
  if bits = 8 then 0xFC#8 else if bits = 16 then 0xFD#8 else 0xFE#8

end Sys2Proof.Claims

open Sys2Proof Sys2Proof.Machine Sys2Proof.Claims

/-! ### Encoding -/

/-- Decoding the bytes of a well-formed instruction gives it back, whatever follows them
(30_encoding.md R80 to R115). -/
def Obligations.DecodeUndoesEncode : Prop :=
  ∀ (m : Mode) (a16 : Bool) (i : Instr) (rest : List Byte),
    i.wf m a16 = true → decode m a16 (encode i ++ rest) = .instr i rest

/-- What the decoder answers is well formed, and the bytes it took are those the encoder writes:
no bit of them is dropped (30_encoding.md R80 to R115). -/
def Obligations.DecodedInstructionHoldsEveryBit : Prop :=
  ∀ (m : Mode) (a16 : Bool) (bytes rest : List Byte) (i : Instr),
    decode m a16 bytes = .instr i rest → i.wf m a16 = true ∧ bytes = encode i ++ rest

/-- The shortest encoding in scope is 3 bytes and the longest 12 (R116). -/
def Obligations.EncodingIsThreeToTwelveBytes : Prop :=
  ∀ (m : Mode) (a16 : Bool) (i : Instr), i.wf m a16 = true →
    3 ≤ (encode i).length ∧ (encode i).length ≤ 12

/-- Bytes that stand after a complete answer do not change it (R82, R115). -/
def Obligations.DecodeIgnoresLaterBytes : Prop :=
  ∀ (m : Mode) (a16 : Bool) (bytes more : List Byte),
    decode m a16 bytes ≠ .truncated → decode m a16 (bytes ++ more) =
      match decode m a16 bytes with
      | .instr i rest => .instr i (rest ++ more)
      | d => d

/-- Words of the decode vectors V-D1, V-D14, V-D20, V-D24, V-D10, V-D11 (the
bytes of V-D10 in `Mode64`) and V-F21 (16-bit addressing admitted, then not) of 95_test_vectors.md. -/
def Obligations.DecodeReadsTheVectorsWords : Prop :=
  decode .mode64 false [0x0F#8, 0xFC#8, 0xCA#8] =
      .instr (.paddbMmx ⟨[], none⟩ 1#3 (.reg 2#3)) [] ∧
  decode .mode64 false [0x66#8, 0x45#8, 0x0F#8, 0xFD#8, 0xC7#8] =
      .instr (.paddwSse ⟨[.opSize], some ⟨false, true, false, true⟩⟩ 0#3 (.reg 7#3)) [] ∧
  decode .mode32 false [0xC5#8, 0xE9#8, 0xFC#8, 0xCB#8] =
      .instr (.vpaddbXmm ⟨[], .two false, 2#4⟩ 1#3 (.reg 3#3)) [] ∧
  decode .mode64 false [0xC5#8, 0xED#8, 0xFE#8, 0xCB#8] =
      .instr (.vpadddYmm ⟨[], .two false, 2#4⟩ 1#3 (.reg 3#3)) [] ∧
  decode .mode32 false [0x0F#8, 0xFC#8, 0x0D#8, 0x00#8, 0x10#8, 0x00#8, 0x00#8] =
      .instr (.paddbMmx ⟨[], none⟩ 1#3 (.mem (.disp32 0x1000#32))) [] ∧
  decode .mode64 false [0x0F#8, 0xFC#8, 0x0D#8, 0x00#8, 0x10#8, 0x00#8, 0x00#8] =
      .instr (.paddbMmx ⟨[], none⟩ 1#3 (.mem (.disp32 0x1000#32))) [] ∧
  decode .mode32 true [0x67#8, 0x0F#8, 0xFC#8, 0x00#8] =
      .instr (.paddbMmx ⟨[.addrSize], none⟩ 0#3 (.mem (.base16 0#3 .none))) [] ∧
  decode .mode32 false [0x67#8, 0x0F#8, 0xFC#8, 0x00#8] = .reject .addr16NotAdmitted

/-- R84: in every class the byte in front of ModRM is FCH for bytes, FDH for words, FEH for
doublewords. -/
def Obligations.LastOpcodeByteSelectsWidth : Prop :=
  ∀ (m : Mode) (a16 : Bool) (bytes rest : List Byte) (i : Instr),
    decode m a16 bytes = .instr i rest →
      ∃ front, bytes = front ++ opcodeByteOfWidth i.width.bits :: i.rm.bytes i.reg ++ rest

/-- R83: without 66H the bytes `0F op …` are an `MMX64` form; the same bytes with 66H in front are
the `SSE128` form with the same width and operands. -/
def Obligations.Prefix66SelectsTheClass : Prop :=
  ∀ (m : Mode) (a16 : Bool) (bytes rest : List Byte) (i : Instr),
    decode m a16 (0x0F#8 :: bytes) = .instr i rest →
      i.cls = .mmx64 ∧ ∃ j, decode m a16 (0x66#8 :: 0x0F#8 :: bytes) = .instr j rest ∧
        j.cls = .sse128 ∧ j.width = i.width ∧ j.reg = i.reg ∧ j.rm = i.rm

/-- R118 (GK): LOCK on a legacy form is #UD; so is 66H, F2H, F3H, F0H or REX before any VEX prefix of
two or three bytes, whatever its `mmmmm` and `pp` (R115 step 3). F2H and F3H with a legacy opcode are
refused instead (R117), and a VEX prefix in `Mode32` has its two high bits set (R113). -/
def Obligations.LockAndPrefixedVexAreInvalid : Prop :=
  (∀ (m : Mode) (a16 : Bool) (ps : List Prefix) (rex : Option Rex) (w : Width) (t : List Byte),
    Prefix.distinct ps = true → .lock ∈ ps → .repne ∉ ps → .rep ∉ ps →
    (m = .mode32 → rex = none) →
    decode m a16 (ps.map Prefix.byte ++ rexBytes rex ++ 0x0F#8 :: w.opcode :: t)
      = .invalidOpcode) ∧
  (∀ (m : Mode) (a16 : Bool) (ps : List Prefix) (rex : Option Rex) (p : Byte) (t : List Byte),
    Prefix.distinct ps = true →
    (.opSize ∈ ps ∨ .lock ∈ ps ∨ .repne ∈ ps ∨ .rep ∈ ps ∨ rex.isSome = true) →
    (m = .mode32 → rex = none ∧ field p 6 2 = 3#2) →
    decode m a16 (ps.map Prefix.byte ++ rexBytes rex ++ 0xC5#8 :: p :: t) = .invalidOpcode ∧
    ∀ p2 : Byte, decode m a16 (ps.map Prefix.byte ++ rexBytes rex ++ 0xC4#8 :: p :: p2 :: t)
      = .invalidOpcode)

/-- R115 step 1, R117 (D15): a repeated prefix, or a second segment override, is refused whatever
follows; so are F2H and F3H before a legacy opcode in scope, with or without a REX byte between, and
a REX byte before another prefix. -/
def Obligations.StrayPrefixesAreRefused : Prop :=
  (∀ (m : Mode) (a16 : Bool) (ps : List Prefix) (t : List Byte),
    Prefix.distinct ps = false → decode m a16 (ps.map Prefix.byte ++ t) = .reject .repeatedPrefix) ∧
  (∀ (m : Mode) (a16 : Bool) (ps : List Prefix) (rex : Option Rex) (w : Width) (t : List Byte),
    Prefix.distinct ps = true → (.repne ∈ ps ∨ .rep ∈ ps) → (m = .mode32 → rex = none) →
    decode m a16 (ps.map Prefix.byte ++ rexBytes rex ++ 0x0F#8 :: w.opcode :: t)
      = .reject .repeatString) ∧
  (∀ (a16 : Bool) (ps : List Prefix) (r : Rex) (p : Prefix) (t : List Byte),
    Prefix.distinct ps = true →
    decode .mode64 a16 (ps.map Prefix.byte ++ r.byte :: p.byte :: t) = .reject .rexNotLast)

/-- R22, R113: an instruction decoded in `Mode32` names no register above 7: no destination, no
`vvvv`, no extension bit. -/
def Obligations.Mode32NamesRegistersBelowEight : Prop :=
  ∀ (a16 : Bool) (bytes rest : List Byte) (i : Instr),
    decode .mode32 a16 bytes = .instr i rest →
      (dest i).toNat < 8 ∧
      (∀ (e : LegacyEnc) (r : BitVec 3) (rm : RegMem),
        i ∈ [.paddbMmx e r rm, .paddwMmx e r rm, .padddMmx e r rm, .paddbSse e r rm,
          .paddwSse e r rm, .padddSse e r rm] → rexX e = false ∧ rexB e = false) ∧
      (∀ (e : VexEnc) (r : BitVec 3) (rm : RegMem),
        i ∈ [.vpaddbXmm e r rm, .vpaddwXmm e r rm, .vpadddXmm e r rm, .vpaddbYmm e r rm,
          .vpaddwYmm e r rm, .vpadddYmm e r rm] →
          e.vvvv.toNat < 8 ∧ vexX e = false ∧ vexB e = false)

/-! ### Results -/

/-- R130: for `w` in 8, 16, 32 and `n` in 64, 128, 256, `PackedAdd(w, n, a, b)` is the value whose
every lane is the sum of the lanes modulo `2^w`, and no other value is. -/
def Obligations.PackedAddAddsEveryLane : Prop :=
  ∀ w ∈ [8, 16, 32], ∀ n ∈ [64, 128, 256], ∀ a b r : BitVec n,
    r = packedAdd w a b ↔ ∀ k < n / w,
      (lane w r k).toNat = ((lane w a k).toNat + (lane w b k).toNat) % 2 ^ w

/-- R131: no lane affects another. -/
def Obligations.NoLaneAffectsAnother : Prop :=
  ∀ w ∈ [8, 16, 32], ∀ n ∈ [64, 128, 256], ∀ (a b c d : BitVec n) (k : Nat), k < n / w →
    lane w a k = lane w c k → lane w b k = lane w d k →
    lane w (packedAdd w a b) k = lane w (packedAdd w c d) k

/-- R150, R160, R170 through R134 and R138 (GK): PADDB, PADDW and PADDD mm, mm/m64 complete, with
either operand form; all else is unchanged. -/
def Obligations.MmxFormsAddEveryLane : Prop :=
  MmxAdds .paddbMmx 8 ∧ MmxAdds .paddwMmx 16 ∧ MmxAdds .padddMmx 32

/-- R135: PADDB, PADDW and PADDD xmm1, xmm2/m128 complete and keep the upper half. -/
def Obligations.SseFormsAddAndKeepTheUpperHalf : Prop :=
  SseAdds .paddbSse 8 ∧ SseAdds .paddwSse 16 ∧ SseAdds .padddSse 32

/-- R136: VPADDB, VPADDW and VPADDD xmm1, xmm2, xmm3/m128 complete and zero the upper half. -/
def Obligations.Vex128FormsAddAndZeroTheUpperHalf : Prop :=
  XmmAdds .vpaddbXmm 8 ∧ XmmAdds .vpaddwXmm 16 ∧ XmmAdds .vpadddXmm 32

/-- R137 at VLMAX = 256: VPADDB, VPADDW and VPADDD ymm1, ymm2, ymm3/m256 complete. -/
def Obligations.Vex256FormsAddAllLanes : Prop :=
  YmmAdds .vpaddbYmm 8 ∧ YmmAdds .vpaddwYmm 16 ∧ YmmAdds .vpadddYmm 32

/-- R139: with the same register as both sources, in all twelve forms, every lane of the destination
is the source's lane doubled modulo `2^w`. -/
def Obligations.SameSourceTwiceDoublesEveryLane : Prop :=
  ∀ (i : Instr) (s t : State), SameSourceTwice i → exec i s = .next t →
    ∀ k < 8 * operandBytes i.cls / i.width.bits,
      destLane i t k = 2 * firstLane i s k % 2 ^ i.width.bits

/-- R227: on the same registers a legacy form and the VEX.128 form with `vvvv` the destination give
the same low half; the legacy form keeps the upper half, the VEX form zeroes it, and no other
register differs. -/
def Obligations.LegacyAndVexDifferInTheUpperHalfOnly : Prop :=
  ∀ (s t u : State) (e : LegacyEnc) (v : VexEnc) (reg r : BitVec 3),
    vexR v = rexR e → vexB v = rexB e → v.vvvv = extend3 (rexR e) reg →
    (exec (.paddbSse e reg (.reg r)) s = .next t ∧ exec (.vpaddbXmm v reg (.reg r)) s = .next u ∨
      exec (.paddwSse e reg (.reg r)) s = .next t ∧ exec (.vpaddwXmm v reg (.reg r)) s = .next u ∨
      exec (.padddSse e reg (.reg r)) s = .next t ∧
        exec (.vpadddXmm v reg (.reg r)) s = .next u) →
    t.readXmm (extend3 (rexR e) reg) = u.readXmm (extend3 (rexR e) reg) ∧
    field (t.readYmm (extend3 (rexR e) reg)) 128 128 =
      field (s.readYmm (extend3 (rexR e) reg)) 128 128 ∧
    field (u.readYmm (extend3 (rexR e) reg)) 128 128 = 0#128 ∧
    ∀ j, j ≠ extend3 (rexR e) reg → t.readYmm j = u.readYmm j

/-- R111, R112, R104, R103 (D16): `VEX.W` and `REX.W` change nothing; nor do `REX.R` and, in the
register form, `REX.X` and `REX.B` of an `MMX64` form. -/
def Obligations.IgnoredBitsChangeNothing : Prop :=
  (∀ (ps : List Prefix) (r x b w w' : Bool) (v : BitVec 4) (reg : BitVec 3) (rm : RegMem)
    (s : State), ∀ mk ∈ [Instr.vpaddbXmm, Instr.vpaddwXmm, Instr.vpadddXmm, Instr.vpaddbYmm,
      Instr.vpaddwYmm, Instr.vpadddYmm],
    exec (mk ⟨ps, .three r x b w, v⟩ reg rm) s = exec (mk ⟨ps, .three r x b w', v⟩ reg rm) s) ∧
  (∀ (ps : List Prefix) (r x b w w' : Bool) (reg : BitVec 3) (rm : RegMem) (s : State),
    ∀ mk ∈ [Instr.paddbSse, Instr.paddwSse, Instr.padddSse, Instr.paddbMmx, Instr.paddwMmx,
      Instr.padddMmx],
    exec (mk ⟨ps, some ⟨w, r, x, b⟩⟩ reg rm) s = exec (mk ⟨ps, some ⟨w', r, x, b⟩⟩ reg rm) s) ∧
  (∀ (ps : List Prefix) (rex rex' : Rex) (reg : BitVec 3) (rm : RegMem) (s : State),
    ∀ mk ∈ [Instr.paddbMmx, Instr.paddwMmx, Instr.padddMmx],
    (∀ f, rm = .mem f → rex.x = rex'.x ∧ rex.b = rex'.b) →
    exec (mk ⟨ps, some rex⟩ reg rm) s = exec (mk ⟨ps, some rex'⟩ reg rm) s)

/-- R111: a two-byte VEX prefix abbreviates the three-byte form with `X = B = W = 0`: on register
operands the two give the same state but for `ip`, which is one byte further. -/
def Obligations.TwoByteVexAbbreviatesThreeByte : Prop :=
  ∀ (s t : State) (m : Mode) (ps : List Prefix) (r : Bool) (v : BitVec 4) (reg j : BitVec 3),
    s.mode = .ok m →
    ∀ mk ∈ [Instr.vpaddbXmm, Instr.vpaddwXmm, Instr.vpadddXmm, Instr.vpaddbYmm, Instr.vpaddwYmm,
      Instr.vpadddYmm],
    exec (mk ⟨ps, .two r, v⟩ reg (.reg j)) s = .next t →
    exec (mk ⟨ps, .three r false false false, v⟩ reg (.reg j)) s =
      .next { t with ip := wrap m (t.ip + 1#64) }

/-! ### Frames -/

/-- R20, R23, R31, R34: what PADDB, PADDW and PADDD mm, mm/m64 leave unchanged. -/
def Obligations.MmxFormsFrame : Prop :=
  ∀ (i : Instr) (s t : State), i.cls = .mmx64 → exec i s = .next t →
    SameSurroundings s t ∧ (∀ j, t.readYmm j = s.readYmm j) ∧
    (∀ j, j ≠ i.reg → t.readMm j = s.readMm j ∧ t.x87Hi[j.toNat] = s.x87Hi[j.toNat]) ∧
    ∀ j, j < 11 ∨ 14 ≤ j → t.x87Status.getLsbD j = s.x87Status.getLsbD j

/-- R21, R23, R31, R34: what the nine forms on XMM and YMM registers leave unchanged. -/
def Obligations.VectorFormsFrame : Prop :=
  ∀ (i : Instr) (s t : State), i.cls ≠ .mmx64 → exec i s = .next t →
    SameSurroundings s t ∧ (∀ j, t.readMm j = s.readMm j) ∧ t.x87Status = s.x87Status ∧
    t.x87Tag = s.x87Tag ∧ t.x87Hi = s.x87Hi ∧ ∀ j, j ≠ dest i → t.readYmm j = s.readYmm j

/-- R133: no flag is written by any of the twelve forms, neither in EFLAGS nor, for the SIMD
floating-point exception flags, in MXCSR (R25). -/
def Obligations.NoFlagIsWritten : Prop :=
  ∀ (i : Instr) (s t : State), exec i s = .next t → t.eflags = s.eflags ∧ t.mxcsr = s.mxcsr

/-- R24, R25: no bit of MXCSR decides an outcome, and no bit of EFLAGS but AC (bit 18, R29) and VM
(bit 17, which is part of the mode: log 3). -/
def Obligations.FlagsDecideNoOutcome : Prop :=
  ∀ (i : Instr) (s : State) (flags mxcsr : BitVec 32),
    bitAt flags 17 = bitAt s.eflags 17 → bitAt flags 18 = bitAt s.eflags 18 →
    exec i { s with eflags := flags, mxcsr := mxcsr } =
      match exec i s with
      | .next t => .next { t with eflags := flags, mxcsr := mxcsr }
      | o => o

/-- R194 (GK): an instruction that completes at one privilege level completes with the same effect at
every other, alignment checking being off (CR0.AM or EFLAGS.AC clear). R194 lets page-level protection
use the level: for a memory operand the statement rests on the model's having no page permission
(D11, log 27). -/
def Obligations.PrivilegeLevelChangesNoResult : Prop :=
  ∀ (i : Instr) (s t : State) (selector : BitVec 16),
    bitAt s.cr0 18 = false ∨ bitAt s.eflags 18 = false → exec i s = .next t →
    exec i { s with csSelector := selector } = .next { t with csSelector := selector }

/-! ### Faults -/

/-- R183 to R186, R188 (GK): the faults of the checks before the operands, in their order: #UD,
then #NM, then (`MMX64` only) #MF. That #MF is raised whatever CR0.NE is, and that `VEX256` needs AVX
beside AVX2, are the model's readings (logs 16 and 33). -/
def Obligations.ChecksFaultInOrder : Prop :=
  ∀ (i : Instr) (s : State) (m : Mode), s.mode = .ok m →
    (InvalidHere i.cls s → exec i s = .fault .invalidOpcode) ∧
    (¬InvalidHere i.cls s → bitAt s.cr0 3 = true → exec i s = .fault .deviceNotAvailable) ∧
    (¬InvalidHere i.cls s → bitAt s.cr0 3 = false → i.cls = .mmx64 →
      bitAt s.x87Status 7 = true → exec i s = .fault .x87FloatingPoint)

/-- R181 (D4): the bytes of a VEX prefix with `L = 1` decode to a `VEX256` form; it raises #UD when
`HAS_AVX2` is false, and completes when it is true and the rest of R221 holds. -/
def Obligations.VexL1NeedsAvx2 : Prop :=
  ∀ (s : State) (m : Mode) (w : Width) (e : VexEnc) (reg : BitVec 3) (rm : RegMem)
    (rest : List Byte), s.mode = .ok m → e.wf m s.cpu.admit16 = true →
    rm.wf (addr16 m e.prefixes) = true →
    ∃ i, decode m s.cpu.admit16 (e.prefixes.map Prefix.byte ++ vexBytes true e.vvvv e.form ++
        w.opcode :: rm.bytes reg ++ rest) = .instr i rest ∧ i.cls = .vex256 ∧
      (s.cpu.hasAvx2 = false → exec i s = .fault .invalidOpcode) ∧
      (s.cpu.hasAvx2 = true → Ready .vex256 s → ∀ b, YmmOperand s m e rm b →
        ∃ t, exec i s = .next t)

/-- R56, R184 to R186 (GK): a memory operand with an illegal address raises #SS(0) in SS and #GP(0)
in any other segment. That it does so for a misaligned `SSE128` operand too is the model's choice
(log 31). -/
def Obligations.IllegalAddressFaults : Prop :=
  ∀ (i : Instr) (f : MemForm) (s : State) (m : Mode), s.mode = .ok m → Ready i.cls s →
    i.rm = .mem f → s.legal m (operandPlace s m f i) (operandBytes i.cls) = false →
    exec i s = .fault (if (operandPlace s m f i).seg = .ss then .stackSegment
      else .generalProtection)

/-- R55 (GK): an `SSE128` operand whose legal address is no multiple of 16 raises #GP(0), whether or
not the memory holds it. -/
def Obligations.MisalignedSseOperandFaults : Prop :=
  ∀ (i : Instr) (f : MemForm) (s : State) (m : Mode), s.mode = .ok m → Ready .sse128 s →
    i.cls = .sse128 → i.rm = .mem f → s.legal m (operandPlace s m f i) 16 = true →
    (operandPlace s m f i).lin.toNat % 16 ≠ 0 → exec i s = .fault .generalProtection

/-- R56, R188, R189 (GK, D11): a memory operand that passes the segment-level checks and is not a
misaligned operand under alignment checking raises #PF at its lowest byte that the memory does not
hold (that an absent byte is a page fault is the model's choice, log 9; that the lowest is named,
which U17 leaves open, and that RSVD is 0, which R189 does not say, are its readings, log 15). -/
def Obligations.AbsentOperandByteFaults : Prop :=
  ∀ (i : Instr) (f : MemForm) (s : State) (m : Mode) (j : Nat), s.mode = .ok m →
    Ready i.cls s → i.rm = .mem f →
    s.legal m (operandPlace s m f i) (operandBytes i.cls) = true →
    (i.cls = .sse128 → (operandPlace s m f i).lin.toNat % 16 = 0) →
    ¬CheckedMisaligned i.cls s (operandPlace s m f i).lin →
    LowestMissing s.mem (operandPlace s m f i).lin.toNat (operandBytes i.cls) j →
    exec i s = .fault (dataPageFault s ((operandPlace s m f i).lin.toNat + j))

/-- R55, R186, R188 (GK): an `MMX64` operand misaligned under alignment checking raises #AC(0) when
the memory holds it, and one of #AC(0) and #PF when it does not. That an absent byte is a page fault
is the model's choice (log 9); that the lowest is named, with this error code, is log 15. -/
def Obligations.CheckedMmxOperandFaults : Prop :=
  ∀ (i : Instr) (f : MemForm) (s : State) (m : Mode), s.mode = .ok m → Ready .mmx64 s →
    i.cls = .mmx64 → i.rm = .mem f → s.legal m (operandPlace s m f i) 8 = true →
    CheckedMisaligned .mmx64 s (operandPlace s m f i).lin →
    ((∀ k < 8, (s.mem.read ((operandPlace s m f i).lin.toNat + k)).isSome = true) →
      exec i s = .fault .alignmentCheck) ∧
    ∀ j, LowestMissing s.mem (operandPlace s m f i).lin.toNat 8 j →
      exec i s = .fault .alignmentCheck ∨
      exec i s = .fault (dataPageFault s ((operandPlace s m f i).lin.toNat + j))

/-- R189 (GK): vectors and error codes, and the address a #PF records, the others recording none. That
RSVD is 0 for an absent byte, R189 giving it no value, is the model's reading (log 15). -/
def Obligations.ExceptionTable : Prop :=
  Fault.vector .invalidOpcode = 6 ∧ Fault.vector .deviceNotAvailable = 7 ∧
  Fault.vector .stackSegment = 12 ∧ Fault.vector .generalProtection = 13 ∧
  Fault.vector .x87FloatingPoint = 16 ∧ Fault.vector .alignmentCheck = 17 ∧
  (∀ c a, Fault.vector (.pageFault c a) = 14 ∧ Fault.recordedAddress (.pageFault c a) = some a) ∧
  (∀ f ∈ [Fault.invalidOpcode, .deviceNotAvailable, .stackSegment, .generalProtection,
    .x87FloatingPoint, .alignmentCheck], Fault.recordedAddress f = none) ∧
  Fault.errorCode .invalidOpcode = none ∧ Fault.errorCode .deviceNotAvailable = none ∧
  Fault.errorCode .x87FloatingPoint = none ∧ Fault.errorCode .stackSegment = some 0 ∧
  Fault.errorCode .generalProtection = some 0 ∧ Fault.errorCode .alignmentCheck = some 0 ∧
  (∀ (s : State) (a : Nat), Fault.errorCode (s.readPageFault a) =
    some (if field s.csSelector 0 2 = 3#2 then 4 else 0))

/-! ### Memory operands -/

/-- R51, R55, R56: `MemRead` answers a value exactly when the address is legal, aligned where its
class asks for it and every byte is held; bits `[8k+7 : 8k]` of the value are then the byte at
`lin + k`. -/
def Obligations.MemReadIsLittleEndian : Prop :=
  ∀ (s : State) (m : Mode) (c : EncClass) (p : Place) (n : Nat) (v : BitVec (8 * n)),
    s.memRead m c p n = .ok v ↔ MemOperand s m c p n v

/-- R56, R184 (GK): an address is legal in `Mode64` when bits 63 to 47 of each byte's address are
equal, in `Mode32` when each byte lies within the segment limit and below `2^32`. That an operand
may not cross the top of the address space is the model's choice (log 12), and so is the limit as
the last valid offset of every segment, none expanding down (log 13). -/
def Obligations.LegalAddressIsCanonicalOrWithinLimit : Prop :=
  ∀ (s : State) (p : Place) (n : Nat), 0 < n → n ≤ 32 →
    (s.legal .mode64 p n = true ↔ ∀ k < n, p.lin.toNat + k < 2 ^ 64 ∧
      CanonicalBits (BitVec.ofNat 64 (p.lin.toNat + k))) ∧
    (s.legal .mode32 p n = true ↔ ∀ k < n,
      p.ea.toNat + k ≤ s.segs[segIndex p.seg].limit.toNat ∧ p.lin.toNat + k < 2 ^ 32)

/-- R106, R108 (GK): the address of a base register plus a sign-extended displacement, and of a
displacement alone in `Mode32`, modulo the address size. -/
def Obligations.BaseDisplacementAddress : Prop :=
  ∀ (s : State) (m : Mode) (ps : List Prefix) (x b : Bool) (len : Nat),
    (∀ (rm : BitVec 3) (d : Disp), ((s.place m ps x b len (.base rm d)).ea.toNat : Int) =
      ((s.readGpr (extend3 b rm)).toNat + dispInt d) % 2 ^ addressBits m ps) ∧
    ∀ d : BitVec 32, m = .mode32 → ((s.place m ps x b len (.disp32 d)).ea.toNat : Int) =
      d.toInt % 2 ^ addressBits m ps

/-- R107 (GK): in `Mode64` the form `mod = 00`, `rm = 101` is relative to the next instruction. -/
def Obligations.RipRelativeAddress : Prop :=
  ∀ (s : State) (ps : List Prefix) (x b : Bool) (len : Nat) (d : BitVec 32),
    ((s.place .mode64 ps x b len (.disp32 d)).ea.toNat : Int) =
      (s.ip.toNat + len + d.toInt) % 2 ^ addressBits .mode64 ps

/-- R109 (GK): the SIB forms, with and without a base register. -/
def Obligations.ScaledIndexAddress : Prop :=
  ∀ (s : State) (m : Mode) (ps : List Prefix) (x b : Bool) (len : Nat) (ss : BitVec 2)
    (index : BitVec 3),
    (∀ (bse : BitVec 3) (d : Disp),
      ((s.place m ps x b len (.sib ss index bse d)).ea.toNat : Int) =
        ((s.readGpr (extend3 b bse)).toNat + indexNat s x ss index + dispInt d)
          % 2 ^ addressBits m ps) ∧
    ∀ d : BitVec 32, ((s.place m ps x b len (.sibNoBase ss index d)).ea.toNat : Int) =
      (indexNat s x ss index + d.toInt) % 2 ^ addressBits m ps

/-- R114 (GK): 16-bit addressing, which 67H selects in `Mode32`. -/
def Obligations.SixteenBitAddress : Prop :=
  ∀ (s : State) (ps : List Prefix) (x b : Bool) (len : Nat), .addrSize ∈ ps →
    (∀ (rm : BitVec 3) (d : Disp16),
      ((s.place .mode32 ps x b len (.base16 rm d)).ea.toNat : Int) =
        (base16Nat s rm + disp16Int d) % 2 ^ 16) ∧
    ∀ d : BitVec 16, (s.place .mode32 ps x b len (.disp16 d)).ea.toNat = d.toNat

/-- R28, R56, R110, R114 (GK): the default segment is SS for a base of register 4 or 5 (in 16-bit
addressing, of BP), else DS; in `Mode32` any override replaces it, in `Mode64` only FS and GS; and
the linear address adds the segment's base, which in `Mode64` only FS and GS keep. -/
def Obligations.SegmentChoice : Prop :=
  (∀ (rm bse index : BitVec 3) (ss : BitVec 2) (d : Disp) (d16 : Disp16) (b : Bool),
    (defaultSeg b (.base rm d) = if rm = 5#3 ∧ b = false then .ss else .ds) ∧
    (defaultSeg b (.sib ss index bse d) =
      if (bse = 4#3 ∨ bse = 5#3) ∧ b = false then .ss else .ds) ∧
    (defaultSeg b (.base16 rm d16) = if rm = 2#3 ∨ rm = 3#3 ∨ rm = 6#3 then .ss else .ds)) ∧
  (∀ (d : BitVec 32) (d16 : BitVec 16) (ss : BitVec 2) (index : BitVec 3) (b : Bool),
    defaultSeg b (.disp32 d) = .ds ∧ defaultSeg b (.sibNoBase ss index d) = .ds ∧
    defaultSeg b (.disp16 d16) = .ds) ∧
  (∀ (s : State) (m : Mode) (ps : List Prefix) (x b : Bool) (len : Nat) (f : MemForm) (g : Seg),
    Prefix.distinct ps = true → .seg g ∈ ps →
    (s.place m ps x b len f).seg =
      if m = .mode32 ∨ g = .fs ∨ g = .gs then g else defaultSeg b f) ∧
  (∀ (s : State) (m : Mode) (ps : List Prefix) (x b : Bool) (len : Nat) (f : MemForm),
    (∀ g, .seg g ∉ ps) → (s.place m ps x b len f).seg = defaultSeg b f) ∧
  ∀ (s : State) (ps : List Prefix) (x b : Bool) (len : Nat) (f : MemForm),
    (s.place .mode64 ps x b len f).lin.toNat =
      ((if (s.place .mode64 ps x b len f).seg = .fs then (s.segs[segIndex .fs].base).toNat
        else if (s.place .mode64 ps x b len f).seg = .gs then (s.segs[segIndex .gs].base).toNat
        else 0) + (s.place .mode64 ps x b len f).ea.toNat) % 2 ^ 64 ∧
    (s.place .mode32 ps x b len f).lin.toNat =
      ((s.segs[segIndex (s.place .mode32 ps x b len f).seg].base).toNat +
        (s.place .mode32 ps x b len f).ea.toNat) % 2 ^ 32

/-! ### The step -/

/-- R140, R26: when the bytes at `ip` decode to an instruction, the step is that instruction's
effect in this state; the step adds nothing to it. In `Mode64` `ip` and the address after the
instruction must be canonical (R26, R188). -/
def Obligations.StepRunsTheDecodedInstruction : Prop :=
  ∀ (s : State) (m : Mode) (bytes : List Byte) (i : Instr), s.mode = .ok m →
    decode m s.cpu.admit16 bytes = .instr i [] → TextAt s m bytes →
    s.ipCanonical m 0 = true → s.ipCanonical m i.length = true → step s = exec i s

/-- R118, R115, D15, D20, R188: a step whose bytes decode to #UD raises it; bytes the decoder gives no
meaning are refused by the decoder's reason; when an instruction is not complete (or not begun), a
next byte across the top of the address space is refused, one past the code segment's limit raises
#GP(0), and one that is absent is refused; a non-canonical `ip` in `Mode64` raises #GP(0), and so
does a complete instruction in front of a non-canonical address, whatever checks it would fail. The
exceptions and the refusals of the fetch are the model's readings of R26, R188, D12 and D20 (logs
10, 11 and 13), and the place of the last one before the instruction's checks is its choice (log
32). -/
def Obligations.StepStopsOnOtherBytes : Prop :=
  ∀ (s : State) (m : Mode), s.mode = .ok m →
    (s.ipCanonical m 0 = true → ∀ bytes : List Byte, bytes.length ≤ 15 → TextAt s m bytes →
      (decode m s.cpu.admit16 bytes = .invalidOpcode → step s = .fault .invalidOpcode) ∧
      (∀ r, decode m s.cpu.admit16 bytes = .reject r →
        step s = .refused (.notAnInstruction r))) ∧
    (s.ipCanonical m 0 = true → ∀ bytes : List Byte, bytes.length < 15 → TextAt s m bytes →
      decode m s.cpu.admit16 bytes = .truncated →
      (codeAddress m (s.codeStart m + bytes.length) = false →
        step s = .refused .codeCrossesTop) ∧
      (codeAddress m (s.codeStart m + bytes.length) = true →
        s.pastCodeLimit m bytes.length = true → step s = .fault .generalProtection) ∧
      (codeAddress m (s.codeStart m + bytes.length) = true →
        s.pastCodeLimit m bytes.length = false →
        s.mem.read (s.codeStart m + bytes.length) = none →
        step s = .refused .fetchOutsideText)) ∧
    (m = .mode64 → ¬CanonicalBits s.ip → step s = .fault .generalProtection) ∧
    (m = .mode64 → s.ipCanonical m 0 = true → ∀ (bytes : List Byte) (i : Instr),
      decode m s.cpu.admit16 bytes = .instr i [] → TextAt s m bytes →
      s.ipCanonical m i.length = false → step s = .fault .generalProtection)

/-- R5, R6 (D1): a step, and every instruction, in a mode out of scope is refused by the mode's
name. -/
def Obligations.ModesOutOfScopeAreRefused : Prop :=
  ∀ (s : State) (o : OtherMode), s.mode = .error o →
    step s = .refused (.modeOutOfScope o) ∧ ∀ i, exec i s = .refused (.modeOutOfScope o)

/-- R26, R141: a step that completes has run a well-formed instruction of 3 to 12 bytes standing at
`ip`, and leaves `ip` just past it. -/
def Obligations.StepAdvancesPastOneInstruction : Prop :=
  ∀ s t : State, step s = .next t → ∃ (m : Mode) (i : Instr),
    s.mode = .ok m ∧ i.wf m s.cpu.admit16 = true ∧ TextAt s m (encode i) ∧
    3 ≤ (encode i).length ∧ (encode i).length ≤ 12 ∧ exec i s = .next t ∧
    t.ip.toNat = match m with
      | .mode64 => s.ip.toNat + (encode i).length
      | .mode32 => (s.ip.toNat + (encode i).length) % 2 ^ 32

/-- R24, R25, R27, R28, R29, R52: no step changes a general register, a flag, a control register, a
segment register, a parameter or a byte of memory, nor the mode. -/
def Obligations.StepKeepsTheSurroundings : Prop :=
  ∀ s t : State, step s = .next t →
    SameSurroundings s t ∧ t.mem = s.mem ∧ t.mode = s.mode

/-- R11, R26, R50: every step keeps the memory's canonical form and the instruction pointer in the
range of the mode. -/
def Obligations.StepKeepsTheInvariant : Prop :=
  ∀ s t : State, Inv s → step s = .next t → Inv t

/-- The invariant holds after reset and after a launch into either mode. -/
def Obligations.ResetAndLaunchMeetTheInvariant : Prop :=
  Inv State.reset ∧ ∀ m, Inv (State.reset.launch m)

/-! ### Reset and launch -/

/-- R35 (GK): the values the table gives for power-up or RESET; and the step after it is refused,
real-address mode being out of scope (D1). R35 gives EAX only "if self-test passed", which the model
presumes (log 30). -/
def Obligations.ResetIsTheTable : Prop :=
  (∀ i, State.reset.readMm i = 0#64) ∧ (∀ i, State.reset.readXmm i = 0#128) ∧
  State.reset.eflags = 0x00000002#32 ∧ State.reset.ip = 0x0000FFF0#64 ∧
  State.reset.segs[segIndex .cs].base = 0xFFFF0000#64 ∧
  (∀ i ∈ [0#4, 1#4, 3#4, 4#4, 5#4, 6#4, 7#4],
    (State.reset.readGpr i).setWidth 32 = 0#32) ∧
  State.reset.cr0 = 0x60000010#32 ∧ State.reset.cr4 = 0#32 ∧ State.reset.xcr0 = 1#64 ∧
  State.reset.mxcsr = 0x1F80#32 ∧ State.reset.x87Tag = 0x5555#16 ∧
  State.reset.x87Status = 0#16 ∧ State.reset.x87Hi = Vector.replicate 8 0#16 ∧
  State.reset.cpl = 0#2 ∧ State.reset.mode = .error .realAddress ∧
  step State.reset = .refused (.modeOutOfScope .realAddress)

/-- R221 (GK): a launch from any state whose processor has the four features and that has no x87
error pending is ready for every class, in the mode it was launched into, and for `Mode64` with
IA32_EFER.LME set (its place, bit 8, is presumed: log 34). That every segment base is then 0 is the
flat launch of decision D10, the model's choice (log 8), not R221. -/
def Obligations.LaunchMakesEveryClassReady : Prop :=
  ∀ (s : State) (m : Mode), s.cpu.hasMmx = true → s.cpu.hasSse2 = true → s.cpu.hasAvx = true →
    s.cpu.hasAvx2 = true → bitAt s.x87Status 7 = false →
    (s.launch m).mode = .ok m ∧ (m = .mode64 → (s.launch m).lme = true) ∧
    (∀ c, Ready c (s.launch m)) ∧
    ∀ (m' : Mode) (g : Seg), (s.launch m).segBase m' g = 0#64

/-! ### Bytes of other instructions, and INIT -/

/-- R112, R115, U26, U27: bytes of other instructions are refused as out of scope: a first byte that
is neither 0FH nor C4H nor C5H (nor a prefix; R104: nor REX in `Mode64`), alone or after a REX byte;
0FH with another opcode byte; a VEX prefix with another `mmmmm`, another `pp` or another opcode
byte. -/
def Obligations.OtherOpcodesAreRefused : Prop :=
  (∀ (m : Mode) (a16 : Bool) (ps : List Prefix) (rex : Option Rex) (b : Byte) (t : List Byte),
    Prefix.distinct ps = true → (m = .mode32 → rex = none) → (∀ p : Prefix, b ≠ p.byte) →
    b ≠ 0x0F#8 → b ≠ 0xC4#8 → b ≠ 0xC5#8 → (m = .mode64 → rex = none → field b 4 4 ≠ 4#4) →
    decode m a16 (ps.map Prefix.byte ++ rexBytes rex ++ b :: t) = .reject .outOfScope) ∧
  (∀ (m : Mode) (a16 : Bool) (ps : List Prefix) (rex : Option Rex) (op : Byte) (t : List Byte),
    Prefix.distinct ps = true → (m = .mode32 → rex = none) → OtherOpcode op →
    decode m a16 (ps.map Prefix.byte ++ rexBytes rex ++ 0x0F#8 :: op :: t)
      = .reject .outOfScope) ∧
  (∀ (m : Mode) (a16 : Bool) (ps : List Prefix) (p1 p2 : Byte) (t : List Byte), BeforeVex ps →
    (m = .mode32 → field p1 6 2 = 3#2) → field p1 0 5 ≠ 1#5 ∨ field p2 0 2 ≠ 1#2 →
    decode m a16 (ps.map Prefix.byte ++ 0xC4#8 :: p1 :: p2 :: t) = .reject .outOfScope) ∧
  (∀ (m : Mode) (a16 : Bool) (ps : List Prefix) (p : Byte) (t : List Byte), BeforeVex ps →
    (m = .mode32 → field p 6 2 = 3#2) → field p 0 2 ≠ 1#2 →
    decode m a16 (ps.map Prefix.byte ++ 0xC5#8 :: p :: t) = .reject .outOfScope) ∧
  (∀ (m : Mode) (a16 : Bool) (ps : List Prefix) (l : Bool) (v : BitVec 4) (f : VexForm)
    (op : Byte) (t : List Byte), BeforeVex ps →
    (m = .mode32 → field ((vexBytes l v f).getD 1 0#8) 6 2 = 3#2) → OtherOpcode op →
    decode m a16 (ps.map Prefix.byte ++ vexBytes l v f ++ op :: t) = .reject .outOfScope)

/-- R113, R114: what `Mode32` alone refuses: C4H and C5H without 11b above the next byte (LES, LDS);
`VEX.B = 1` and `vvvv >= 8` (D26); 67H before a form in scope while it is not admitted (D17). -/
def Obligations.Mode32RefusesItsOtherEncodings : Prop :=
  (∀ (a16 : Bool) (ps : List Prefix) (b p : Byte) (t : List Byte),
    Prefix.distinct ps = true → b = 0xC4#8 ∨ b = 0xC5#8 → field p 6 2 ≠ 3#2 →
    decode .mode32 a16 (ps.map Prefix.byte ++ b :: p :: t) = .reject .lesOrLds) ∧
  (∀ (a16 : Bool) (ps : List Prefix) (l : Bool) (v : BitVec 4) (f : VexForm) (w : Width)
    (t : List Byte), BeforeVex ps → field ((vexBytes l v f).getD 1 0#8) 6 2 = 3#2 →
    (∃ r x w', f = .three r x true w') ∨ 8 ≤ v.toNat →
    decode .mode32 a16 (ps.map Prefix.byte ++ vexBytes l v f ++ w.opcode :: t)
      = .reject .vexRegisterInMode32) ∧
  (∀ (ps : List Prefix) (w : Width) (t : List Byte), Prefix.distinct ps = true →
    .addrSize ∈ ps → .lock ∉ ps → .repne ∉ ps → .rep ∉ ps →
    decode .mode32 false (ps.map Prefix.byte ++ 0x0F#8 :: w.opcode :: t)
      = .reject .addr16NotAdmitted) ∧
  (∀ (ps : List Prefix) (l : Bool) (v : BitVec 4) (f : VexForm) (w : Width) (t : List Byte),
    BeforeVex ps → .addrSize ∈ ps → f.plain = true → v.toNat < 8 →
    decode .mode32 false (ps.map Prefix.byte ++ vexBytes l v f ++ w.opcode :: t)
      = .reject .addr16NotAdmitted)

/-- R35 (GK), the column "after INIT", from any state and whatever values the unspecified upper YMM
halves and XCR0 get: what INIT leaves unchanged, and what it sets as RESET does. The places of CD and
NW (bits 30 and 29 of CR0) are presumed (log 35), as is the passed self-test (log 30). -/
def Obligations.InitIsTheTable : Prop :=
  ∀ (s : State) (upper : Vector (BitVec 128) 16) (xcr0 : BitVec 64),
    let t := s.init upper xcr0
    (∀ i, t.readMm i = s.readMm i ∧ t.x87Hi[i.toNat] = s.x87Hi[i.toNat]) ∧
    (∀ i, t.readXmm i = s.readXmm i ∧ field (t.readYmm i) 128 128 = upper[i.toNat]) ∧
    t.mxcsr = s.mxcsr ∧ t.x87Tag = s.x87Tag ∧ t.x87Status = s.x87Status ∧ t.mem = s.mem ∧
    (∀ j < 32, t.cr0.getLsbD j =
      if j = 29 ∨ j = 30 then s.cr0.getLsbD j else State.reset.cr0.getLsbD j) ∧
    t.xcr0 = xcr0 ∧ t.eflags = State.reset.eflags ∧ t.ip = State.reset.ip ∧
    t.segs[segIndex .cs].base = State.reset.segs[segIndex .cs].base ∧
    (∀ i ∈ [0#4, 1#4, 2#4, 3#4, 4#4, 5#4, 6#4, 7#4],
      (t.readGpr i).setWidth 32 = (State.reset.readGpr i).setWidth 32) ∧
    t.cr4 = State.reset.cr4 ∧ t.cpl = 0#2 ∧ step t = .refused (.modeOutOfScope .realAddress)
end

