-- ==== Sys2Proof/Laws/State.lean ====
section
/-! SUPPORT. The small lemmas of the state: one per field per update, then what follows from them. -/

namespace Sys2Proof.Machine

variable (s : State)

/-! ### writeMm -/

@[simp] theorem writeMm_mm (i : BitVec 3) (v : BitVec 64) :
    (s.writeMm i v).mm = s.mm.set i.toNat v := rfl
@[simp] theorem writeMm_ymm (i : BitVec 3) (v : BitVec 64) : (s.writeMm i v).ymm = s.ymm := rfl
@[simp] theorem writeMm_gpr (i : BitVec 3) (v : BitVec 64) : (s.writeMm i v).gpr = s.gpr := rfl
@[simp] theorem writeMm_ip (i : BitVec 3) (v : BitVec 64) : (s.writeMm i v).ip = s.ip := rfl
@[simp] theorem writeMm_eflags (i : BitVec 3) (v : BitVec 64) :
    (s.writeMm i v).eflags = s.eflags := rfl
@[simp] theorem writeMm_mxcsr (i : BitVec 3) (v : BitVec 64) :
    (s.writeMm i v).mxcsr = s.mxcsr := rfl
@[simp] theorem writeMm_x87Status (i : BitVec 3) (v : BitVec 64) :
    (s.writeMm i v).x87Status = s.x87Status := rfl
@[simp] theorem writeMm_x87Tag (i : BitVec 3) (v : BitVec 64) :
    (s.writeMm i v).x87Tag = s.x87Tag := rfl
@[simp] theorem writeMm_x87Hi (i : BitVec 3) (v : BitVec 64) :
    (s.writeMm i v).x87Hi = s.x87Hi := rfl
@[simp] theorem writeMm_cr0 (i : BitVec 3) (v : BitVec 64) : (s.writeMm i v).cr0 = s.cr0 := rfl
@[simp] theorem writeMm_cr2 (i : BitVec 3) (v : BitVec 64) : (s.writeMm i v).cr2 = s.cr2 := rfl
@[simp] theorem writeMm_cr4 (i : BitVec 3) (v : BitVec 64) : (s.writeMm i v).cr4 = s.cr4 := rfl
@[simp] theorem writeMm_xcr0 (i : BitVec 3) (v : BitVec 64) : (s.writeMm i v).xcr0 = s.xcr0 := rfl
@[simp] theorem writeMm_efer (i : BitVec 3) (v : BitVec 64) : (s.writeMm i v).efer = s.efer := rfl
@[simp] theorem writeMm_csSelector (i : BitVec 3) (v : BitVec 64) :
    (s.writeMm i v).csSelector = s.csSelector := rfl
@[simp] theorem writeMm_csL (i : BitVec 3) (v : BitVec 64) : (s.writeMm i v).csL = s.csL := rfl
@[simp] theorem writeMm_csD (i : BitVec 3) (v : BitVec 64) : (s.writeMm i v).csD = s.csD := rfl
@[simp] theorem writeMm_smm (i : BitVec 3) (v : BitVec 64) : (s.writeMm i v).smm = s.smm := rfl
@[simp] theorem writeMm_segs (i : BitVec 3) (v : BitVec 64) : (s.writeMm i v).segs = s.segs := rfl
@[simp] theorem writeMm_mem (i : BitVec 3) (v : BitVec 64) : (s.writeMm i v).mem = s.mem := rfl
@[simp] theorem writeMm_cpu (i : BitVec 3) (v : BitVec 64) : (s.writeMm i v).cpu = s.cpu := rfl
@[simp] theorem writeMm_mode (i : BitVec 3) (v : BitVec 64) : (s.writeMm i v).mode = s.mode := rfl

/-! ### writeYmm -/

@[simp] theorem writeYmm_mm (i : BitVec 4) (v : BitVec 256) : (s.writeYmm i v).mm = s.mm := rfl
@[simp] theorem writeYmm_ymm (i : BitVec 4) (v : BitVec 256) :
    (s.writeYmm i v).ymm = s.ymm.set i.toNat v := rfl
@[simp] theorem writeYmm_gpr (i : BitVec 4) (v : BitVec 256) : (s.writeYmm i v).gpr = s.gpr := rfl
@[simp] theorem writeYmm_ip (i : BitVec 4) (v : BitVec 256) : (s.writeYmm i v).ip = s.ip := rfl
@[simp] theorem writeYmm_eflags (i : BitVec 4) (v : BitVec 256) :
    (s.writeYmm i v).eflags = s.eflags := rfl
@[simp] theorem writeYmm_mxcsr (i : BitVec 4) (v : BitVec 256) :
    (s.writeYmm i v).mxcsr = s.mxcsr := rfl
@[simp] theorem writeYmm_x87Status (i : BitVec 4) (v : BitVec 256) :
    (s.writeYmm i v).x87Status = s.x87Status := rfl
@[simp] theorem writeYmm_x87Tag (i : BitVec 4) (v : BitVec 256) :
    (s.writeYmm i v).x87Tag = s.x87Tag := rfl
@[simp] theorem writeYmm_x87Hi (i : BitVec 4) (v : BitVec 256) :
    (s.writeYmm i v).x87Hi = s.x87Hi := rfl
@[simp] theorem writeYmm_cr0 (i : BitVec 4) (v : BitVec 256) : (s.writeYmm i v).cr0 = s.cr0 := rfl
@[simp] theorem writeYmm_cr2 (i : BitVec 4) (v : BitVec 256) : (s.writeYmm i v).cr2 = s.cr2 := rfl
@[simp] theorem writeYmm_cr4 (i : BitVec 4) (v : BitVec 256) : (s.writeYmm i v).cr4 = s.cr4 := rfl
@[simp] theorem writeYmm_xcr0 (i : BitVec 4) (v : BitVec 256) :
    (s.writeYmm i v).xcr0 = s.xcr0 := rfl
@[simp] theorem writeYmm_efer (i : BitVec 4) (v : BitVec 256) :
    (s.writeYmm i v).efer = s.efer := rfl
@[simp] theorem writeYmm_csSelector (i : BitVec 4) (v : BitVec 256) :
    (s.writeYmm i v).csSelector = s.csSelector := rfl
@[simp] theorem writeYmm_csL (i : BitVec 4) (v : BitVec 256) : (s.writeYmm i v).csL = s.csL := rfl
@[simp] theorem writeYmm_csD (i : BitVec 4) (v : BitVec 256) : (s.writeYmm i v).csD = s.csD := rfl
@[simp] theorem writeYmm_smm (i : BitVec 4) (v : BitVec 256) : (s.writeYmm i v).smm = s.smm := rfl
@[simp] theorem writeYmm_segs (i : BitVec 4) (v : BitVec 256) :
    (s.writeYmm i v).segs = s.segs := rfl
@[simp] theorem writeYmm_mem (i : BitVec 4) (v : BitVec 256) : (s.writeYmm i v).mem = s.mem := rfl
@[simp] theorem writeYmm_cpu (i : BitVec 4) (v : BitVec 256) : (s.writeYmm i v).cpu = s.cpu := rfl
@[simp] theorem writeYmm_mode (i : BitVec 4) (v : BitVec 256) : (s.writeYmm i v).mode = s.mode := rfl

/-! ### writeXmmKeep -/

@[simp] theorem writeXmmKeep_mm (i : BitVec 4) (v : BitVec 128) :
    (s.writeXmmKeep i v).mm = s.mm := rfl
@[simp] theorem writeXmmKeep_ymm (i : BitVec 4) (v : BitVec 128) :
    (s.writeXmmKeep i v).ymm = s.ymm.set i.toNat (field (s.readYmm i) 128 128 ++ v) := rfl
@[simp] theorem writeXmmKeep_gpr (i : BitVec 4) (v : BitVec 128) :
    (s.writeXmmKeep i v).gpr = s.gpr := rfl
@[simp] theorem writeXmmKeep_ip (i : BitVec 4) (v : BitVec 128) :
    (s.writeXmmKeep i v).ip = s.ip := rfl
@[simp] theorem writeXmmKeep_eflags (i : BitVec 4) (v : BitVec 128) :
    (s.writeXmmKeep i v).eflags = s.eflags := rfl
@[simp] theorem writeXmmKeep_mxcsr (i : BitVec 4) (v : BitVec 128) :
    (s.writeXmmKeep i v).mxcsr = s.mxcsr := rfl
@[simp] theorem writeXmmKeep_x87Status (i : BitVec 4) (v : BitVec 128) :
    (s.writeXmmKeep i v).x87Status = s.x87Status := rfl
@[simp] theorem writeXmmKeep_x87Tag (i : BitVec 4) (v : BitVec 128) :
    (s.writeXmmKeep i v).x87Tag = s.x87Tag := rfl
@[simp] theorem writeXmmKeep_x87Hi (i : BitVec 4) (v : BitVec 128) :
    (s.writeXmmKeep i v).x87Hi = s.x87Hi := rfl
@[simp] theorem writeXmmKeep_cr0 (i : BitVec 4) (v : BitVec 128) :
    (s.writeXmmKeep i v).cr0 = s.cr0 := rfl
@[simp] theorem writeXmmKeep_cr2 (i : BitVec 4) (v : BitVec 128) :
    (s.writeXmmKeep i v).cr2 = s.cr2 := rfl
@[simp] theorem writeXmmKeep_cr4 (i : BitVec 4) (v : BitVec 128) :
    (s.writeXmmKeep i v).cr4 = s.cr4 := rfl
@[simp] theorem writeXmmKeep_xcr0 (i : BitVec 4) (v : BitVec 128) :
    (s.writeXmmKeep i v).xcr0 = s.xcr0 := rfl
@[simp] theorem writeXmmKeep_efer (i : BitVec 4) (v : BitVec 128) :
    (s.writeXmmKeep i v).efer = s.efer := rfl
@[simp] theorem writeXmmKeep_csSelector (i : BitVec 4) (v : BitVec 128) :
    (s.writeXmmKeep i v).csSelector = s.csSelector := rfl
@[simp] theorem writeXmmKeep_csL (i : BitVec 4) (v : BitVec 128) :
    (s.writeXmmKeep i v).csL = s.csL := rfl
@[simp] theorem writeXmmKeep_csD (i : BitVec 4) (v : BitVec 128) :
    (s.writeXmmKeep i v).csD = s.csD := rfl
@[simp] theorem writeXmmKeep_smm (i : BitVec 4) (v : BitVec 128) :
    (s.writeXmmKeep i v).smm = s.smm := rfl
@[simp] theorem writeXmmKeep_segs (i : BitVec 4) (v : BitVec 128) :
    (s.writeXmmKeep i v).segs = s.segs := rfl
@[simp] theorem writeXmmKeep_mem (i : BitVec 4) (v : BitVec 128) :
    (s.writeXmmKeep i v).mem = s.mem := rfl
@[simp] theorem writeXmmKeep_cpu (i : BitVec 4) (v : BitVec 128) :
    (s.writeXmmKeep i v).cpu = s.cpu := rfl
@[simp] theorem writeXmmKeep_mode (i : BitVec 4) (v : BitVec 128) : (s.writeXmmKeep i v).mode = s.mode := rfl

/-! ### writeXmmZero -/

@[simp] theorem writeXmmZero_mm (i : BitVec 4) (v : BitVec 128) :
    (s.writeXmmZero i v).mm = s.mm := rfl
@[simp] theorem writeXmmZero_ymm (i : BitVec 4) (v : BitVec 128) :
    (s.writeXmmZero i v).ymm = s.ymm.set i.toNat (0#128 ++ v) := rfl
@[simp] theorem writeXmmZero_gpr (i : BitVec 4) (v : BitVec 128) :
    (s.writeXmmZero i v).gpr = s.gpr := rfl
@[simp] theorem writeXmmZero_ip (i : BitVec 4) (v : BitVec 128) :
    (s.writeXmmZero i v).ip = s.ip := rfl
@[simp] theorem writeXmmZero_eflags (i : BitVec 4) (v : BitVec 128) :
    (s.writeXmmZero i v).eflags = s.eflags := rfl
@[simp] theorem writeXmmZero_mxcsr (i : BitVec 4) (v : BitVec 128) :
    (s.writeXmmZero i v).mxcsr = s.mxcsr := rfl
@[simp] theorem writeXmmZero_x87Status (i : BitVec 4) (v : BitVec 128) :
    (s.writeXmmZero i v).x87Status = s.x87Status := rfl
@[simp] theorem writeXmmZero_x87Tag (i : BitVec 4) (v : BitVec 128) :
    (s.writeXmmZero i v).x87Tag = s.x87Tag := rfl
@[simp] theorem writeXmmZero_x87Hi (i : BitVec 4) (v : BitVec 128) :
    (s.writeXmmZero i v).x87Hi = s.x87Hi := rfl
@[simp] theorem writeXmmZero_cr0 (i : BitVec 4) (v : BitVec 128) :
    (s.writeXmmZero i v).cr0 = s.cr0 := rfl
@[simp] theorem writeXmmZero_cr2 (i : BitVec 4) (v : BitVec 128) :
    (s.writeXmmZero i v).cr2 = s.cr2 := rfl
@[simp] theorem writeXmmZero_cr4 (i : BitVec 4) (v : BitVec 128) :
    (s.writeXmmZero i v).cr4 = s.cr4 := rfl
@[simp] theorem writeXmmZero_xcr0 (i : BitVec 4) (v : BitVec 128) :
    (s.writeXmmZero i v).xcr0 = s.xcr0 := rfl
@[simp] theorem writeXmmZero_efer (i : BitVec 4) (v : BitVec 128) :
    (s.writeXmmZero i v).efer = s.efer := rfl
@[simp] theorem writeXmmZero_csSelector (i : BitVec 4) (v : BitVec 128) :
    (s.writeXmmZero i v).csSelector = s.csSelector := rfl
@[simp] theorem writeXmmZero_csL (i : BitVec 4) (v : BitVec 128) :
    (s.writeXmmZero i v).csL = s.csL := rfl
@[simp] theorem writeXmmZero_csD (i : BitVec 4) (v : BitVec 128) :
    (s.writeXmmZero i v).csD = s.csD := rfl
@[simp] theorem writeXmmZero_smm (i : BitVec 4) (v : BitVec 128) :
    (s.writeXmmZero i v).smm = s.smm := rfl
@[simp] theorem writeXmmZero_segs (i : BitVec 4) (v : BitVec 128) :
    (s.writeXmmZero i v).segs = s.segs := rfl
@[simp] theorem writeXmmZero_mem (i : BitVec 4) (v : BitVec 128) :
    (s.writeXmmZero i v).mem = s.mem := rfl
@[simp] theorem writeXmmZero_cpu (i : BitVec 4) (v : BitVec 128) :
    (s.writeXmmZero i v).cpu = s.cpu := rfl
@[simp] theorem writeXmmZero_mode (i : BitVec 4) (v : BitVec 128) : (s.writeXmmZero i v).mode = s.mode := rfl

/-! ### touchX87 -/

@[simp] theorem touchX87_mm (i : BitVec 3) : (s.touchX87 i).mm = s.mm := rfl
@[simp] theorem touchX87_ymm (i : BitVec 3) : (s.touchX87 i).ymm = s.ymm := rfl
@[simp] theorem touchX87_gpr (i : BitVec 3) : (s.touchX87 i).gpr = s.gpr := rfl
@[simp] theorem touchX87_ip (i : BitVec 3) : (s.touchX87 i).ip = s.ip := rfl
@[simp] theorem touchX87_eflags (i : BitVec 3) : (s.touchX87 i).eflags = s.eflags := rfl
@[simp] theorem touchX87_mxcsr (i : BitVec 3) : (s.touchX87 i).mxcsr = s.mxcsr := rfl
@[simp] theorem touchX87_x87Status (i : BitVec 3) :
    (s.touchX87 i).x87Status = clearTop s.x87Status := rfl
@[simp] theorem touchX87_x87Tag (i : BitVec 3) : (s.touchX87 i).x87Tag = 0#16 := rfl
@[simp] theorem touchX87_x87Hi (i : BitVec 3) :
    (s.touchX87 i).x87Hi = s.x87Hi.set i.toNat 0xFFFF#16 := rfl
@[simp] theorem touchX87_cr0 (i : BitVec 3) : (s.touchX87 i).cr0 = s.cr0 := rfl
@[simp] theorem touchX87_cr2 (i : BitVec 3) : (s.touchX87 i).cr2 = s.cr2 := rfl
@[simp] theorem touchX87_cr4 (i : BitVec 3) : (s.touchX87 i).cr4 = s.cr4 := rfl
@[simp] theorem touchX87_xcr0 (i : BitVec 3) : (s.touchX87 i).xcr0 = s.xcr0 := rfl
@[simp] theorem touchX87_efer (i : BitVec 3) : (s.touchX87 i).efer = s.efer := rfl
@[simp] theorem touchX87_csSelector (i : BitVec 3) : (s.touchX87 i).csSelector = s.csSelector := rfl
@[simp] theorem touchX87_csL (i : BitVec 3) : (s.touchX87 i).csL = s.csL := rfl
@[simp] theorem touchX87_csD (i : BitVec 3) : (s.touchX87 i).csD = s.csD := rfl
@[simp] theorem touchX87_smm (i : BitVec 3) : (s.touchX87 i).smm = s.smm := rfl
@[simp] theorem touchX87_segs (i : BitVec 3) : (s.touchX87 i).segs = s.segs := rfl
@[simp] theorem touchX87_mem (i : BitVec 3) : (s.touchX87 i).mem = s.mem := rfl
@[simp] theorem touchX87_cpu (i : BitVec 3) : (s.touchX87 i).cpu = s.cpu := rfl
@[simp] theorem touchX87_mode (i : BitVec 3) : (s.touchX87 i).mode = s.mode := rfl

/-! ### advance -/

@[simp] theorem advance_mm (m : Mode) (len : Nat) : (s.advance m len).mm = s.mm := rfl
@[simp] theorem advance_ymm (m : Mode) (len : Nat) : (s.advance m len).ymm = s.ymm := rfl
@[simp] theorem advance_gpr (m : Mode) (len : Nat) : (s.advance m len).gpr = s.gpr := rfl
@[simp] theorem advance_ip (m : Mode) (len : Nat) : (s.advance m len).ip = s.nextIp m len := rfl
@[simp] theorem advance_eflags (m : Mode) (len : Nat) : (s.advance m len).eflags = s.eflags := rfl
@[simp] theorem advance_mxcsr (m : Mode) (len : Nat) : (s.advance m len).mxcsr = s.mxcsr := rfl
@[simp] theorem advance_x87Status (m : Mode) (len : Nat) :
    (s.advance m len).x87Status = s.x87Status := rfl
@[simp] theorem advance_x87Tag (m : Mode) (len : Nat) : (s.advance m len).x87Tag = s.x87Tag := rfl
@[simp] theorem advance_x87Hi (m : Mode) (len : Nat) : (s.advance m len).x87Hi = s.x87Hi := rfl
@[simp] theorem advance_cr0 (m : Mode) (len : Nat) : (s.advance m len).cr0 = s.cr0 := rfl
@[simp] theorem advance_cr2 (m : Mode) (len : Nat) : (s.advance m len).cr2 = s.cr2 := rfl
@[simp] theorem advance_cr4 (m : Mode) (len : Nat) : (s.advance m len).cr4 = s.cr4 := rfl
@[simp] theorem advance_xcr0 (m : Mode) (len : Nat) : (s.advance m len).xcr0 = s.xcr0 := rfl
@[simp] theorem advance_efer (m : Mode) (len : Nat) : (s.advance m len).efer = s.efer := rfl
@[simp] theorem advance_csSelector (m : Mode) (len : Nat) :
    (s.advance m len).csSelector = s.csSelector := rfl
@[simp] theorem advance_csL (m : Mode) (len : Nat) : (s.advance m len).csL = s.csL := rfl
@[simp] theorem advance_csD (m : Mode) (len : Nat) : (s.advance m len).csD = s.csD := rfl
@[simp] theorem advance_smm (m : Mode) (len : Nat) : (s.advance m len).smm = s.smm := rfl
@[simp] theorem advance_segs (m : Mode) (len : Nat) : (s.advance m len).segs = s.segs := rfl
@[simp] theorem advance_mem (m : Mode) (len : Nat) : (s.advance m len).mem = s.mem := rfl
@[simp] theorem advance_cpu (m : Mode) (len : Nat) : (s.advance m len).cpu = s.cpu := rfl
@[simp] theorem advance_mode (m : Mode) (len : Nat) : (s.advance m len).mode = s.mode := rfl

/-! ### launch -/

@[simp] theorem launch_mm (m : Mode) : (s.launch m).mm = s.mm := rfl
@[simp] theorem launch_ymm (m : Mode) : (s.launch m).ymm = s.ymm := rfl
@[simp] theorem launch_gpr (m : Mode) : (s.launch m).gpr = s.gpr := rfl
@[simp] theorem launch_ip (m : Mode) : (s.launch m).ip = s.ip := rfl
@[simp] theorem launch_eflags (m : Mode) : (s.launch m).eflags = s.eflags &&& 0xFFFDFFFF#32 := rfl
@[simp] theorem launch_mxcsr (m : Mode) : (s.launch m).mxcsr = s.mxcsr := rfl
@[simp] theorem launch_x87Status (m : Mode) : (s.launch m).x87Status = s.x87Status := rfl
@[simp] theorem launch_x87Tag (m : Mode) : (s.launch m).x87Tag = s.x87Tag := rfl
@[simp] theorem launch_x87Hi (m : Mode) : (s.launch m).x87Hi = s.x87Hi := rfl
@[simp] theorem launch_cr0 (m : Mode) : (s.launch m).cr0 = launchCr0 m s.cr0 := rfl
@[simp] theorem launch_cr2 (m : Mode) : (s.launch m).cr2 = s.cr2 := rfl
@[simp] theorem launch_cr4 (m : Mode) : (s.launch m).cr4 = s.cr4 ||| 0x00040200#32 := rfl
@[simp] theorem launch_xcr0 (m : Mode) : (s.launch m).xcr0 = s.xcr0 ||| 6#64 := rfl
@[simp] theorem launch_efer (m : Mode) : (s.launch m).efer = launchEfer m s.efer := rfl
@[simp] theorem launch_csSelector (m : Mode) : (s.launch m).csSelector = s.csSelector := rfl
@[simp] theorem launch_csL (m : Mode) : (s.launch m).csL = decide (m = .mode64) := rfl
@[simp] theorem launch_csD (m : Mode) : (s.launch m).csD = decide (m = .mode32) := rfl
@[simp] theorem launch_smm (m : Mode) : (s.launch m).smm = false := rfl
@[simp] theorem launch_segs (m : Mode) : (s.launch m).segs = Vector.replicate 6 flatSeg := rfl
@[simp] theorem launch_mem (m : Mode) : (s.launch m).mem = s.mem := rfl
@[simp] theorem launch_cpu (m : Mode) : (s.launch m).cpu = s.cpu := rfl

/-! ### init -/

section

variable (upper : Vector (BitVec 128) 16) (xcr0 : BitVec 64)

@[simp] theorem init_mm : (s.init upper xcr0).mm = s.mm := rfl
@[simp] theorem init_ymm : (s.init upper xcr0).ymm = withUpper upper s.ymm := rfl
@[simp] theorem init_gpr : (s.init upper xcr0).gpr = State.reset.gpr := rfl
@[simp] theorem init_ip : (s.init upper xcr0).ip = State.reset.ip := rfl
@[simp] theorem init_eflags : (s.init upper xcr0).eflags = State.reset.eflags := rfl
@[simp] theorem init_mxcsr : (s.init upper xcr0).mxcsr = s.mxcsr := rfl
@[simp] theorem init_x87Status : (s.init upper xcr0).x87Status = s.x87Status := rfl
@[simp] theorem init_x87Tag : (s.init upper xcr0).x87Tag = s.x87Tag := rfl
@[simp] theorem init_x87Hi : (s.init upper xcr0).x87Hi = s.x87Hi := rfl
@[simp] theorem init_cr0 : (s.init upper xcr0).cr0 = initCr0 s.cr0 := rfl
@[simp] theorem init_cr2 : (s.init upper xcr0).cr2 = State.reset.cr2 := rfl
@[simp] theorem init_cr4 : (s.init upper xcr0).cr4 = State.reset.cr4 := rfl
@[simp] theorem init_xcr0 : (s.init upper xcr0).xcr0 = xcr0 := rfl
@[simp] theorem init_efer : (s.init upper xcr0).efer = State.reset.efer := rfl
@[simp] theorem init_csSelector : (s.init upper xcr0).csSelector = State.reset.csSelector := rfl
@[simp] theorem init_csL : (s.init upper xcr0).csL = State.reset.csL := rfl
@[simp] theorem init_csD : (s.init upper xcr0).csD = State.reset.csD := rfl
@[simp] theorem init_smm : (s.init upper xcr0).smm = State.reset.smm := rfl
@[simp] theorem init_segs : (s.init upper xcr0).segs = State.reset.segs := rfl
@[simp] theorem init_mem : (s.init upper xcr0).mem = s.mem := rfl
@[simp] theorem init_cpu : (s.init upper xcr0).cpu = s.cpu := rfl

/-- INIT keeps the low half of a YMM register and leaves its upper half to the outside. -/
@[simp] theorem init_readYmm (i : BitVec 4) :
    (s.init upper xcr0).readYmm i = upper[i.toNat] ++ field (s.readYmm i) 0 128 := by
  simp [State.readYmm, State.init, withUpper]

end

/-! ### placeBytes -/

@[simp] theorem placeBytes_mm (a : Nat) (bytes : List Byte) :
    (s.placeBytes a bytes).mm = s.mm := rfl
@[simp] theorem placeBytes_ymm (a : Nat) (bytes : List Byte) :
    (s.placeBytes a bytes).ymm = s.ymm := rfl
@[simp] theorem placeBytes_gpr (a : Nat) (bytes : List Byte) :
    (s.placeBytes a bytes).gpr = s.gpr := rfl
@[simp] theorem placeBytes_ip (a : Nat) (bytes : List Byte) :
    (s.placeBytes a bytes).ip = s.ip := rfl
@[simp] theorem placeBytes_eflags (a : Nat) (bytes : List Byte) :
    (s.placeBytes a bytes).eflags = s.eflags := rfl
@[simp] theorem placeBytes_mxcsr (a : Nat) (bytes : List Byte) :
    (s.placeBytes a bytes).mxcsr = s.mxcsr := rfl
@[simp] theorem placeBytes_x87Status (a : Nat) (bytes : List Byte) :
    (s.placeBytes a bytes).x87Status = s.x87Status := rfl
@[simp] theorem placeBytes_x87Tag (a : Nat) (bytes : List Byte) :
    (s.placeBytes a bytes).x87Tag = s.x87Tag := rfl
@[simp] theorem placeBytes_x87Hi (a : Nat) (bytes : List Byte) :
    (s.placeBytes a bytes).x87Hi = s.x87Hi := rfl
@[simp] theorem placeBytes_cr0 (a : Nat) (bytes : List Byte) :
    (s.placeBytes a bytes).cr0 = s.cr0 := rfl
@[simp] theorem placeBytes_cr2 (a : Nat) (bytes : List Byte) :
    (s.placeBytes a bytes).cr2 = s.cr2 := rfl
@[simp] theorem placeBytes_cr4 (a : Nat) (bytes : List Byte) :
    (s.placeBytes a bytes).cr4 = s.cr4 := rfl
@[simp] theorem placeBytes_xcr0 (a : Nat) (bytes : List Byte) :
    (s.placeBytes a bytes).xcr0 = s.xcr0 := rfl
@[simp] theorem placeBytes_efer (a : Nat) (bytes : List Byte) :
    (s.placeBytes a bytes).efer = s.efer := rfl
@[simp] theorem placeBytes_csSelector (a : Nat) (bytes : List Byte) :
    (s.placeBytes a bytes).csSelector = s.csSelector := rfl
@[simp] theorem placeBytes_csL (a : Nat) (bytes : List Byte) :
    (s.placeBytes a bytes).csL = s.csL := rfl
@[simp] theorem placeBytes_csD (a : Nat) (bytes : List Byte) :
    (s.placeBytes a bytes).csD = s.csD := rfl
@[simp] theorem placeBytes_smm (a : Nat) (bytes : List Byte) :
    (s.placeBytes a bytes).smm = s.smm := rfl
@[simp] theorem placeBytes_segs (a : Nat) (bytes : List Byte) :
    (s.placeBytes a bytes).segs = s.segs := rfl
@[simp] theorem placeBytes_mem (a : Nat) (bytes : List Byte) :
    (s.placeBytes a bytes).mem = s.mem.writeBytes a bytes := rfl
@[simp] theorem placeBytes_cpu (a : Nat) (bytes : List Byte) :
    (s.placeBytes a bytes).cpu = s.cpu := rfl
@[simp] theorem placeBytes_mode (a : Nat) (bytes : List Byte) :
    (s.placeBytes a bytes).mode = s.mode := rfl

/-! ### Reading a register after a write -/

@[simp] theorem readMm_writeMm (i : BitVec 3) (v : BitVec 64) :
    (s.writeMm i v).readMm i = v := by simp [State.writeMm, State.readMm]

theorem readMm_writeMm_of_ne {i j : BitVec 3} (h : j ≠ i) (v : BitVec 64) :
    (s.writeMm i v).readMm j = s.readMm j :=
  Vector.getElem_set_ne i.isLt j.isLt fun hh => h (BitVec.eq_of_toNat_eq hh.symm)

@[simp] theorem readYmm_writeYmm (i : BitVec 4) (v : BitVec 256) :
    (s.writeYmm i v).readYmm i = v := by simp [State.writeYmm, State.readYmm]

theorem readYmm_writeYmm_of_ne {i j : BitVec 4} (h : j ≠ i) (v : BitVec 256) :
    (s.writeYmm i v).readYmm j = s.readYmm j :=
  Vector.getElem_set_ne i.isLt j.isLt fun hh => h (BitVec.eq_of_toNat_eq hh.symm)

/-- The low half of a register put together from two halves. -/
theorem field_low_append (a b : BitVec 128) : field (a ++ b) 0 128 = b := by
  apply BitVec.eq_of_getLsbD_eq
  intro i hi
  rw [BitVec.getLsbD_extractLsb', BitVec.getLsbD_append]
  simp [hi]

/-- The high half. -/
theorem field_high_append (a b : BitVec 128) : field (a ++ b) 128 128 = a := by
  apply BitVec.eq_of_getLsbD_eq
  intro i hi
  rw [BitVec.getLsbD_extractLsb', BitVec.getLsbD_append]
  simp [hi]

@[simp] theorem readXmm_writeXmmKeep (i : BitVec 4) (v : BitVec 128) :
    (s.writeXmmKeep i v).readXmm i = v := by
  unfold State.writeXmmKeep State.readXmm
  rw [readYmm_writeYmm, field_low_append]

@[simp] theorem readXmm_writeXmmZero (i : BitVec 4) (v : BitVec 128) :
    (s.writeXmmZero i v).readXmm i = v := by
  unfold State.writeXmmZero State.readXmm
  rw [readYmm_writeYmm, field_low_append]

/-! ### The next instruction pointer -/

theorem toNat_nextIp_mode64 (n : Nat) (h : canonical (s.ip.toNat + n) = true) :
    (s.nextIp .mode64 n).toNat = s.ip.toNat + n := by
  have hlt : s.ip.toNat + n < 2 ^ 64 := by
    simp only [canonical, Bool.or_eq_true, Bool.and_eq_true, decide_eq_true_eq] at h
    omega
  simp only [State.nextIp, wrap, BitVec.toNat_add, BitVec.toNat_ofNat]
  omega

theorem toNat_nextIp_mode32 (n : Nat) :
    (s.nextIp .mode32 n).toNat = (s.ip.toNat + n) % 2 ^ 32 := by
  simp only [State.nextIp, wrap]
  simp
  omega

end Sys2Proof.Machine
end

