-- ==== Sys2Proof/Laws/Decode.lean ====
section
/-! SUPPORT. The parts of the decoder and of the encoder undo each other: prefixes, REX, VEX, ModRM
with SIB and displacement (30_encoding.md R101 to R114). -/

namespace Sys2Proof

/-! ### Prefixes -/

@[simp] theorem Prefix.ofByte?_byte (p : Prefix) : Prefix.ofByte? p.byte = some p := by
  cases p with
  | seg s => cases s <;> rfl
  | _ => rfl

theorem Prefix.byte_of_ofByte? {b : Byte} {p : Prefix} (h : Prefix.ofByte? b = some p) :
    p.byte = b := by
  have hall : ∀ b : Byte, ((Prefix.ofByte? b).all fun p => p.byte == b) = true := by
    decide +kernel
  simpa [h] using hall b

/-- The prefixes are read off in front of a byte that is none. -/
theorem scanPrefixes_append (ps : List Prefix) (b : Byte) (t : List Byte)
    (hb : Prefix.ofByte? b = none) :
    scanPrefixes (ps.map Prefix.byte ++ b :: t) = (ps, b :: t) := by
  induction ps with
  | nil => simp [scanPrefixes, hb]
  | cons p ps ih => simp [scanPrefixes, ih]

/-- The bytes are those of the prefixes read and of what is left. -/
theorem scanPrefixes_bytes (bs : List Byte) :
    bs = (scanPrefixes bs).1.map Prefix.byte ++ (scanPrefixes bs).2 := by
  induction bs with
  | nil => rfl
  | cons b t ih =>
    simp only [scanPrefixes]
    split
    · next p hp => simp [Prefix.byte_of_ofByte? hp, ← ih]
    · simp

/-- After the prefixes stands no prefix. -/
theorem scanPrefixes_head {bs : List Byte} {b : Byte} {t : List Byte}
    (h : (scanPrefixes bs).2 = b :: t) : Prefix.ofByte? b = none := by
  induction bs with
  | nil => simp [scanPrefixes] at h
  | cons c bs ih =>
    simp only [scanPrefixes] at h
    split at h
    · exact ih h
    · next hc => cases h; exact hc

/-! ### REX -/

@[simp] theorem Rex.ofByte?_byte (r : Rex) : Rex.ofByte? r.byte = some r := by
  obtain ⟨w, r, x, b⟩ := r
  cases w <;> cases r <;> cases x <;> cases b <;> rfl

theorem Rex.byte_of_ofByte? {b : Byte} {r : Rex} (h : Rex.ofByte? b = some r) : r.byte = b := by
  have hall : ∀ b : Byte, ((Rex.ofByte? b).all fun r => r.byte == b) = true := by
    decide +kernel
  simpa [h] using hall b

/-- A REX byte is no prefix byte. -/
theorem Rex.byte_not_prefix (r : Rex) : Prefix.ofByte? r.byte = none := by
  obtain ⟨w, r, x, b⟩ := r
  cases w <;> cases r <;> cases x <;> cases b <;> rfl

/-! ### Two bits and two three-bit fields -/

@[simp] theorem field_pack233_hi (h : BitVec 2) (m l : BitVec 3) :
    field (pack233 h m l) 6 2 = h := by
  revert h m l; decide

@[simp] theorem field_pack233_mid (h : BitVec 2) (m l : BitVec 3) :
    field (pack233 h m l) 3 3 = m := by
  revert h m l; decide

@[simp] theorem field_pack233_low (h : BitVec 2) (m l : BitVec 3) :
    field (pack233 h m l) 0 3 = l := by
  revert h m l; decide

@[simp] theorem pack233_fields (b : Byte) :
    pack233 (field b 6 2) (field b 3 3) (field b 0 3) = b := by
  revert b; decide

/-! ### Displacements -/

@[simp] theorem take32_bytes32 (d : BitVec 32) (t : List Byte) :
    take32 (bytes32 d ++ t) = some (d, t) := by
  simp only [bytes32, List.cons_append, List.nil_append, take32, Option.some.injEq, Prod.mk.injEq,
    and_true]
  apply BitVec.eq_of_getLsbD_eq
  intro i hi
  simp only [BitVec.getLsbD_append, BitVec.getLsbD_extractLsb']
  split_ifs with h1 h2 h3
  · simp [h1]
  · simp [h2, show 8 + (i - 8) = i by omega]
  · simp [h3, show 16 + (i - 8 - 8) = i by omega]
  · simp [show i - 8 - 8 - 8 < 8 by omega, show 24 + (i - 8 - 8 - 8) = i by omega]

theorem bytes32_of_take32 {bs t : List Byte} {d : BitVec 32} (h : take32 bs = some (d, t)) :
    bs = bytes32 d ++ t := by
  unfold take32 at h
  split at h
  · next b0 b1 b2 b3 t' =>
    simp only [Option.some.injEq, Prod.mk.injEq] at h
    obtain ⟨rfl, rfl⟩ := h
    simp only [bytes32, List.cons_append, List.nil_append, List.cons.injEq, and_true]
    refine ⟨?_, ?_, ?_, ?_⟩ <;> apply BitVec.eq_of_getLsbD_eq <;> intro i hi <;>
      simp only [BitVec.getLsbD_append, BitVec.getLsbD_extractLsb'] <;> simp [hi] <;>
      split_ifs <;> first | rfl | omega | (congr 1; omega)
  · cases h

@[simp] theorem take16_bytes16 (d : BitVec 16) (t : List Byte) :
    take16 (bytes16 d ++ t) = some (d, t) := by
  simp only [bytes16, List.cons_append, List.nil_append, take16, Option.some.injEq, Prod.mk.injEq,
    and_true]
  apply BitVec.eq_of_getLsbD_eq
  intro i hi
  simp only [BitVec.getLsbD_append, BitVec.getLsbD_extractLsb']
  split_ifs with h1
  · simp [h1]
  · simp [show i - 8 < 8 by omega, show 8 + (i - 8) = i by omega]

theorem bytes16_of_take16 {bs t : List Byte} {d : BitVec 16} (h : take16 bs = some (d, t)) :
    bs = bytes16 d ++ t := by
  unfold take16 at h
  split at h
  · next b0 b1 t' =>
    simp only [Option.some.injEq, Prod.mk.injEq] at h
    obtain ⟨rfl, rfl⟩ := h
    simp only [bytes16, List.cons_append, List.nil_append, List.cons.injEq, and_true]
    refine ⟨?_, ?_⟩ <;> apply BitVec.eq_of_getLsbD_eq <;> intro i hi <;>
      simp only [BitVec.getLsbD_append, BitVec.getLsbD_extractLsb'] <;> simp [hi]
  · cases h

theorem parseDisp_bytes (d : Disp) (t : List Byte) :
    parseDisp d.mod (d.bytes ++ t) = some (d, t) := by
  cases d <;> simp [parseDisp, Disp.mod, Disp.bytes]

theorem parseDisp16_bytes (d : Disp16) (t : List Byte) :
    parseDisp16 d.mod (d.bytes ++ t) = some (d, t) := by
  cases d <;> simp [parseDisp16, Disp16.mod, Disp16.bytes]

theorem Disp.mod_ne_three (d : Disp) : d.mod ≠ 3#2 := by cases d <;> simp [Disp.mod]

theorem Disp16.mod_ne_three (d : Disp16) : d.mod ≠ 3#2 := by cases d <;> simp [Disp16.mod]

/-- What the displacement parser read. -/
theorem parseDisp_eq {mod : BitVec 2} {bs t : List Byte} {d : Disp} (hm : mod ≠ 3#2)
    (h : parseDisp mod bs = some (d, t)) : d.mod = mod ∧ bs = d.bytes ++ t := by
  unfold parseDisp at h
  split_ifs at h with h0 h1
  · simp only [Option.some.injEq, Prod.mk.injEq] at h
    obtain ⟨rfl, rfl⟩ := h
    exact ⟨h0.symm, rfl⟩
  · split at h
    · simp only [Option.some.injEq, Prod.mk.injEq] at h
      obtain ⟨rfl, rfl⟩ := h
      exact ⟨h1.symm, rfl⟩
    · cases h
  · split at h
    · next d' t' hd =>
      simp only [Option.some.injEq, Prod.mk.injEq] at h
      obtain ⟨rfl, rfl⟩ := h
      refine ⟨?_, bytes32_of_take32 hd⟩
      simp only [Disp.mod]
      revert h0 h1 hm; revert mod; decide
    · cases h

/-- What the 16-bit displacement parser read. -/
theorem parseDisp16_eq {mod : BitVec 2} {bs t : List Byte} {d : Disp16} (hm : mod ≠ 3#2)
    (h : parseDisp16 mod bs = some (d, t)) : d.mod = mod ∧ bs = d.bytes ++ t := by
  unfold parseDisp16 at h
  split_ifs at h with h0 h1
  · simp only [Option.some.injEq, Prod.mk.injEq] at h
    obtain ⟨rfl, rfl⟩ := h
    exact ⟨h0.symm, rfl⟩
  · split at h
    · simp only [Option.some.injEq, Prod.mk.injEq] at h
      obtain ⟨rfl, rfl⟩ := h
      exact ⟨h1.symm, rfl⟩
    · cases h
  · split at h
    · next d' t' hd =>
      simp only [Option.some.injEq, Prod.mk.injEq] at h
      obtain ⟨rfl, rfl⟩ := h
      refine ⟨?_, bytes16_of_take16 hd⟩
      simp only [Disp16.mod]
      revert h0 h1 hm; revert mod; decide
    · cases h

/-! ### ModRM -/

/-- The operand parser reads what the encoder wrote. -/
theorem parseModRM_bytes (wide16 : Bool) (reg : BitVec 3) (rm : RegMem) (t : List Byte)
    (h : rm.wf wide16 = true) : parseModRM wide16 (rm.bytes reg ++ t) = some (reg, rm, t) := by
  cases rm with
  | reg r => simp [RegMem.bytes, parseModRM]
  | mem f =>
    cases f with
    | base r d =>
      obtain ⟨⟨rfl, h4⟩, h5⟩ : (wide16 = false ∧ r ≠ 4#3) ∧ (r = 5#3 → d ≠ .none) := by
        simpa [RegMem.wf, MemForm.wf, imp_iff_not_or] using h
      have h0 : ¬(d.mod = 0#2 ∧ r = 5#3) := by
        rintro ⟨hd, hr⟩; cases d <;> simp_all [Disp.mod]
      simp only [RegMem.bytes, MemForm.bytes, List.cons_append, parseModRM, field_pack233_hi,
        field_pack233_mid, field_pack233_low, Disp.mod_ne_three, if_false, Bool.false_eq_true,
        parseMem, h4, h0, parseDisp_bytes]
    | disp32 d =>
      obtain rfl : wide16 = false := by simpa [RegMem.wf, MemForm.wf] using h
      simp [RegMem.bytes, MemForm.bytes, parseModRM, parseMem]
    | sib ss idx bse d =>
      obtain ⟨rfl, h5⟩ : wide16 = false ∧ (bse = 5#3 → d ≠ .none) := by
        simpa [RegMem.wf, MemForm.wf, imp_iff_not_or] using h
      have h0 : ¬(d.mod = 0#2 ∧ bse = 5#3) := by
        rintro ⟨hd, hr⟩; cases d <;> simp_all [Disp.mod]
      simp only [RegMem.bytes, MemForm.bytes, List.cons_append, parseModRM, field_pack233_hi,
        field_pack233_mid, field_pack233_low, Disp.mod_ne_three, if_false, Bool.false_eq_true,
        parseMem, parseSib, if_true, h0, parseDisp_bytes]
    | sibNoBase ss idx d =>
      obtain rfl : wide16 = false := by simpa [RegMem.wf, MemForm.wf] using h
      simp [RegMem.bytes, MemForm.bytes, parseModRM, parseMem, parseSib]
    | base16 r d =>
      obtain ⟨rfl, h6⟩ : wide16 = true ∧ (r = 6#3 → d ≠ .none) := by
        simpa [RegMem.wf, MemForm.wf, imp_iff_not_or] using h
      have h0 : ¬(d.mod = 0#2 ∧ r = 6#3) := by
        rintro ⟨hd, hr⟩; cases d <;> simp_all [Disp16.mod]
      simp only [RegMem.bytes, MemForm.bytes, List.cons_append, parseModRM, field_pack233_hi,
        field_pack233_mid, field_pack233_low, Disp16.mod_ne_three, if_false, if_true, parseMem16,
        h0, parseDisp16_bytes]
    | disp16 d =>
      obtain rfl : wide16 = true := by simpa [RegMem.wf, MemForm.wf] using h
      simp [RegMem.bytes, MemForm.bytes, parseModRM, parseMem16]

/-- What the operand parser read. -/
theorem parseModRM_eq {wide16 : Bool} {bs t : List Byte} {reg : BitVec 3} {rm : RegMem}
    (h : parseModRM wide16 bs = some (reg, rm, t)) :
    rm.wf wide16 = true ∧ bs = rm.bytes reg ++ t := by
  unfold parseModRM at h
  split at h
  · cases h
  · next mb t0 =>
    split_ifs at h with h3 hw
    · simp only [Option.some.injEq, Prod.mk.injEq] at h
      obtain ⟨rfl, rfl, rfl⟩ := h
      refine ⟨rfl, ?_⟩
      simp only [RegMem.bytes, List.cons_append, List.nil_append, ← h3, pack233_fields]
    · split at h
      · next f t' hf =>
        simp only [Option.some.injEq, Prod.mk.injEq] at h
        obtain ⟨rfl, rfl, rfl⟩ := h
        subst hw
        unfold parseMem16 at hf
        split_ifs at hf with h06
        · split at hf
          · next d t'' hd =>
            simp only [Option.some.injEq, Prod.mk.injEq] at hf
            obtain ⟨rfl, rfl⟩ := hf
            refine ⟨rfl, ?_⟩
            rw [bytes16_of_take16 hd]
            simp [RegMem.bytes, MemForm.bytes, ← h06.1, ← h06.2]
          · cases hf
        · split at hf
          · next d t'' hd =>
            simp only [Option.some.injEq, Prod.mk.injEq] at hf
            obtain ⟨rfl, rfl⟩ := hf
            obtain ⟨hm, hb⟩ := parseDisp16_eq h3 hd
            refine ⟨?_, ?_⟩
            · have : field mb 0 3 = 6#3 → d ≠ .none := by
                rintro hr rfl
                exact h06 ⟨hm.symm, hr⟩
              simpa [RegMem.wf, MemForm.wf, imp_iff_not_or] using this
            · rw [hb]
              simp only [RegMem.bytes, MemForm.bytes, hm, pack233_fields, List.cons_append]
          · cases hf
      · cases h
    · split at h
      · next f t' hf =>
        simp only [Option.some.injEq, Prod.mk.injEq] at h
        obtain ⟨rfl, rfl, rfl⟩ := h
        obtain rfl : wide16 = false := by simpa using hw
        unfold parseMem at hf
        split_ifs at hf with h4 h05
        · unfold parseSib at hf
          split at hf
          · cases hf
          · next sb t1 =>
            split_ifs at hf with h05
            · split at hf
              · next d t'' hd =>
                simp only [Option.some.injEq, Prod.mk.injEq] at hf
                obtain ⟨rfl, rfl⟩ := hf
                refine ⟨rfl, ?_⟩
                rw [bytes32_of_take32 hd]
                simp only [RegMem.bytes, MemForm.bytes, ← h05.1, ← h05.2, ← h4, pack233_fields,
                  List.cons_append]
              · cases hf
            · split at hf
              · next d t'' hd =>
                simp only [Option.some.injEq, Prod.mk.injEq] at hf
                obtain ⟨rfl, rfl⟩ := hf
                obtain ⟨hm, hb⟩ := parseDisp_eq h3 hd
                refine ⟨?_, ?_⟩
                · have : field sb 0 3 = 5#3 → d ≠ .none := by
                    rintro hr rfl
                    exact h05 ⟨hm.symm, hr⟩
                  simpa [RegMem.wf, MemForm.wf, imp_iff_not_or] using this
                · rw [hb]
                  simp only [RegMem.bytes, MemForm.bytes, hm, ← h4, pack233_fields,
                    List.cons_append]
              · cases hf
        · split at hf
          · next d t'' hd =>
            simp only [Option.some.injEq, Prod.mk.injEq] at hf
            obtain ⟨rfl, rfl⟩ := hf
            refine ⟨rfl, ?_⟩
            rw [bytes32_of_take32 hd]
            simp only [RegMem.bytes, MemForm.bytes, ← h05.1, ← h05.2, pack233_fields,
              List.cons_append]
          · cases hf
        · split at hf
          · next d t'' hd =>
            simp only [Option.some.injEq, Prod.mk.injEq] at hf
            obtain ⟨rfl, rfl⟩ := hf
            obtain ⟨hm, hb⟩ := parseDisp_eq h3 hd
            refine ⟨?_, ?_⟩
            · have : field mb 0 3 = 5#3 → d ≠ .none := by
                rintro hr rfl
                exact h05 ⟨hm.symm, hr⟩
              simpa [RegMem.wf, MemForm.wf, h4, imp_iff_not_or] using this
            · rw [hb]
              simp only [RegMem.bytes, MemForm.bytes, hm, pack233_fields, List.cons_append]
          · cases hf
      · cases h

/-- The length of an operand's bytes. -/
theorem RegMem.length_bytes (reg : BitVec 3) (rm : RegMem) : (rm.bytes reg).length = rm.length := by
  cases rm with
  | reg r => rfl
  | mem f =>
    cases f with
    | base r d => cases d <;> rfl
    | sib ss idx bse d => cases d <;> rfl
    | base16 r d => cases d <;> rfl
    | _ => rfl

/-! ### The opcode byte and VEX -/

@[simp] theorem Width.ofOpcode?_opcode (w : Width) : Width.ofOpcode? w.opcode = some w := by
  cases w <;> rfl

theorem Width.opcode_of_ofOpcode? {op : Byte} {w : Width} (h : Width.ofOpcode? op = some w) :
    w.opcode = op := by
  unfold Width.ofOpcode? at h
  split_ifs at h with h1 h2 h3 <;> cases h
  · exact h1.symm
  · exact h2.symm
  · exact h3.symm

/-- The first byte of a VEX prefix. -/
def VexForm.escape : VexForm → Byte
  | .two _ => 0xC5#8
  | .three _ _ _ _ => 0xC4#8

theorem vexBytes_cons (l : Bool) (v : BitVec 4) (f : VexForm) :
    vexBytes l v f = f.escape :: (vexBytes l v f).tail := by
  cases f <;> rfl

/-- The VEX parser reads what the encoder wrote. -/
theorem takeVex_bytes (l : Bool) (v : BitVec 4) (f : VexForm) (t : List Byte) :
    takeVex f.escape ((vexBytes l v f).tail ++ t) = some (⟨f, 1#5, v, l, 1#2⟩, t) := by
  cases f with
  | two r =>
    simp only [VexForm.escape, vexBytes, List.tail_cons, List.cons_append, List.nil_append, takeVex,
      if_true, VexFields.ofP, Option.some.injEq, Prod.mk.injEq, and_true]
    revert l v r; decide +kernel
  | three r x b w =>
    simp only [VexForm.escape, vexBytes, List.tail_cons, List.cons_append, List.nil_append, takeVex,
      show ¬(0xC4#8 = 0xC5#8) by decide, if_false, VexFields.ofP1P2, Option.some.injEq,
      Prod.mk.injEq, and_true]
    revert l v r x b w; decide +kernel

/-- What the VEX parser read. -/
theorem takeVex_eq {b : Byte} {bs t : List Byte} {v : VexFields} (hb : b = 0xC4#8 ∨ b = 0xC5#8)
    (h : takeVex b bs = some (v, t)) (hm : v.mmmmm = 1#5) (hp : v.pp = 1#2) :
    b :: bs = vexBytes v.l v.vvvv v.form ++ t := by
  have h2 : ∀ p : Byte, (VexFields.ofP p).pp = 1#2 →
      [0xC5#8, p] = vexBytes (VexFields.ofP p).l (VexFields.ofP p).vvvv (VexFields.ofP p).form := by
    decide +kernel
  have h3a : ∀ p : Byte, field p 0 5 = 1#5 →
      p = BitVec.ofBool (!!bitAt p 7) ++ BitVec.ofBool (!!bitAt p 6) ++
        BitVec.ofBool (!!bitAt p 5) ++ 1#5 := by decide +kernel
  have h3b : ∀ p : Byte, field p 0 2 = 1#2 →
      p = BitVec.ofBool (bitAt p 7) ++ ~~~(~~~(field p 3 4)) ++ BitVec.ofBool (bitAt p 2) ++ 1#2 := by
    decide +kernel
  unfold takeVex at h
  split_ifs at h with hc
  · subst hc
    split at h
    · next p t' =>
      simp only [Option.some.injEq, Prod.mk.injEq] at h
      obtain ⟨rfl, rfl⟩ := h
      rw [← h2 p hp]
      rfl
    · cases h
  · obtain rfl : b = 0xC4#8 := hb.resolve_right hc
    split at h
    · next p1 p2 t' =>
      simp only [Option.some.injEq, Prod.mk.injEq] at h
      obtain ⟨rfl, rfl⟩ := h
      have e1 := h3a p1 hm
      have e2 := h3b p2 hp
      simp only [vexBytes, VexFields.ofP1P2, List.cons_append, List.nil_append, List.cons.injEq,
        and_true, true_and]
      exact ⟨e1, e2⟩
    · cases h

end Sys2Proof
end

