-- ==== Sys2Proof/Laws/Memory.lean ====
section
/-! SUPPORT. The laws of memory: what a read after a write gives, that every write keeps the
canonical form, and what reading several bytes gives (20_memory.md R51). -/

namespace Sys2Proof.Machine

@[simp] theorem Memory.read_nil (a : Nat) : Memory.read [] a = none := rfl

@[simp] theorem Memory.read_cons (x : Nat) (v : Byte) (t : Memory) (a : Nat) :
    Memory.read ((x, v) :: t) a = if x = a then some v else Memory.read t a := rfl

/-- Below the first listed address nothing is held. -/
theorem Memory.read_of_lt {mem : Memory} {a : Nat} (h : ∀ c ∈ mem, a < c.1) :
    mem.read a = none := by
  induction mem with
  | nil => rfl
  | cons c t ih =>
    have hc : a < c.1 := h c (by simp)
    rw [Memory.read_cons, if_neg (by omega)]
    exact ih fun d hd => h d (by simp [hd])

/-- A read gives the byte last written there, and else what it gave before. -/
theorem Memory.read_write (mem : Memory) (a b : Nat) (v : Byte) (h : mem.wf) :
    (mem.write a v).read b = if a = b then some v else mem.read b := by
  induction mem with
  | nil => simp [Memory.write]
  | cons c t ih =>
    obtain ⟨x, u⟩ := c
    have ht := List.pairwise_cons.1 h
    simp only [Memory.write]
    split
    · next hlt => simp
    · split
      · next hax => subst hax; simp only [Memory.read_cons]; split <;> rfl
      · next hax =>
        simp only [Memory.read_cons, ih ht.2]
        by_cases hx : x = b
        · have : a ≠ b := by omega
          simp [hx, this]
        · simp [hx]

/-- The addresses a write leaves listed: the old ones and the one written. -/
theorem Memory.mem_write_addr {mem : Memory} {a : Nat} {v : Byte} {c : Host.Cell}
    (h : c ∈ mem.write a v) : c.1 = a ∨ c ∈ mem := by
  induction mem with
  | nil => simp [Memory.write] at h; simp [h]
  | cons d t ih =>
    obtain ⟨x, u⟩ := d
    simp only [Memory.write] at h
    split at h
    · rcases List.mem_cons.1 h with rfl | h
      · exact .inl rfl
      · exact .inr h
    · split at h
      · rcases List.mem_cons.1 h with rfl | h
        · exact .inl rfl
        · exact .inr (List.mem_cons_of_mem _ h)
      · rcases List.mem_cons.1 h with rfl | h
        · exact .inr (by simp)
        · rcases ih h with h | h
          · exact .inl h
          · exact .inr (List.mem_cons_of_mem _ h)

/-- A write keeps the canonical form. -/
theorem Memory.write_wf (mem : Memory) (a : Nat) (v : Byte) (h : mem.wf) :
    (mem.write a v).wf := by
  induction mem with
  | nil => simp [Memory.write, Memory.wf]
  | cons c t ih =>
    obtain ⟨x, u⟩ := c
    have ht := List.pairwise_cons.1 h
    simp only [Memory.write]
    split
    · next hlt =>
      refine List.pairwise_cons.2 ⟨fun d hd => ?_, h⟩
      rcases List.mem_cons.1 hd with rfl | hd
      · exact hlt
      · exact lt_trans hlt (ht.1 d hd)
    · split
      · next hax => subst hax; exact List.pairwise_cons.2 ⟨ht.1, ht.2⟩
      · refine List.pairwise_cons.2 ⟨fun d hd => ?_, ih ht.2⟩
        rcases Memory.mem_write_addr hd with hd | hd
        · show x < d.1; omega
        · exact ht.1 d hd

/-- Writing several bytes keeps the canonical form. -/
theorem Memory.writeBytes_wf (mem : Memory) (a : Nat) (bytes : List Byte) (h : mem.wf) :
    (mem.writeBytes a bytes).wf := by
  induction bytes generalizing mem a with
  | nil => exact h
  | cons b t ih => exact ih _ _ (mem.write_wf a b h)

/-- A read after several bytes were written. -/
theorem Memory.read_writeBytes (mem : Memory) (a : Nat) (bytes : List Byte) (x : Nat)
    (h : mem.wf) : (mem.writeBytes a bytes).read x =
      if a ≤ x then (bytes[x - a]?).or (mem.read x) else mem.read x := by
  induction bytes generalizing mem a with
  | nil => simp [Memory.writeBytes]
  | cons b t ih =>
    rw [Memory.writeBytes, ih _ _ (mem.write_wf a b h), Memory.read_write _ _ _ _ h]
    rcases Nat.lt_trichotomy a x with hax | rfl | hax
    · have h1 : x - a = (x - (a + 1)) + 1 := by omega
      simp [show a ≤ x by omega, show a + 1 ≤ x by omega, h1, show a ≠ x by omega]
    · simp
    · simp [show ¬a ≤ x by omega, show ¬a + 1 ≤ x by omega, show a ≠ x by omega]

theorem reset_mem_wf : State.reset.mem.wf := List.Pairwise.nil

/-! ### Reading several bytes -/

theorem field_append_low {n : Nat} (hi : BitVec (8 * n)) (b : Byte) :
    field (hi ++ b) 0 8 = b := by
  apply BitVec.eq_of_getLsbD_eq
  intro i hi'
  simp [BitVec.getLsbD_append, hi']

theorem field_append_high {n : Nat} (hi : BitVec (8 * n)) (b : Byte) (k : Nat) :
    field (hi ++ b) (8 * (k + 1)) 8 = field hi (8 * k) 8 := by
  apply BitVec.eq_of_getLsbD_eq
  intro i hi'
  have h1 : ¬ 8 * (k + 1) + i < 8 := by omega
  have h2 : 8 * (k + 1) + i - 8 = 8 * k + i := by omega
  simp [BitVec.getLsbD_append, h1, h2]

/-- The bytes of a value determine it. -/
theorem eq_of_bytes_eq {n : Nat} {v w : BitVec (8 * n)}
    (h : ∀ k < n, field v (8 * k) 8 = field w (8 * k) 8) : v = w := by
  apply BitVec.eq_of_getLsbD_eq
  intro i hi
  have hk := congrArg (fun x => BitVec.getLsbD x (i % 8)) (h (i / 8) (by omega))
  have h8 : i % 8 < 8 := Nat.mod_lt _ (by decide)
  have hi8 : 8 * (i / 8) + i % 8 = i := Nat.div_add_mod i 8
  simpa [h8, hi8] using hk

/-- `readLE` answers `v` exactly when the bytes from `a` on are those of `v` (R51). -/
theorem Memory.readLE_eq_ok_iff (mem : Memory) (a n : Nat) (v : BitVec (8 * n)) :
    mem.readLE a n = .ok v ↔ Holds mem a n v := by
  induction n generalizing a with
  | zero =>
    constructor
    · intro _ k hk; omega
    · intro _; simp only [Memory.readLE]; exact congrArg _ (Subsingleton.elim _ _)
  | succ n ih =>
    simp only [Memory.readLE]
    constructor
    · intro h
      split at h
      · cases h
      · next b hb =>
        split at h
        · cases h
        · next hi hr =>
          cases h
          have hH := (ih (a + 1) hi).1 hr
          intro k hk
          cases k with
          | zero => rw [Nat.add_zero, hb, Nat.mul_zero]; exact congrArg some (field_append_low hi b).symm
          | succ k =>
            rw [show a + (k + 1) = a + 1 + k by omega, hH k (by omega)]
            exact congrArg some (field_append_high hi b k).symm
    · intro h
      have h0 := h 0 (by omega)
      rw [Nat.add_zero, Nat.mul_zero] at h0
      have hrest : mem.readLE (a + 1) n = .ok (field v 8 (8 * n)) := by
        refine (ih (a + 1) _).2 fun k hk => ?_
        rw [show a + 1 + k = a + (k + 1) by omega, h (k + 1) (by omega)]
        apply congrArg some
        apply BitVec.eq_of_getLsbD_eq
        intro i hi
        have : 8 * k + i < 8 * n := by omega
        simp [hi, this, show 8 * (k + 1) + i = 8 + (8 * k + i) by omega]
      rw [h0, hrest]
      refine congrArg Except.ok (eq_of_bytes_eq (n := n + 1) fun k hk => ?_)
      cases k with
      | zero => exact field_append_low _ _
      | succ k =>
        refine (field_append_high _ _ k).trans ?_
        apply BitVec.eq_of_getLsbD_eq
        intro i hi
        have : 8 * k + i < 8 * n := by omega
        simp [hi, this, show 8 * (k + 1) + i = 8 + (8 * k + i) by omega]

/-- `readLE` answers an address exactly when that byte is absent and every lower one is held. -/
theorem Memory.readLE_eq_error_iff (mem : Memory) (a n x : Nat) :
    mem.readLE a n = .error x ↔
      ∃ k < n, x = a + k ∧ mem.read x = none ∧ ∀ j < k, (mem.read (a + j)).isSome := by
  induction n generalizing a with
  | zero => simp [Memory.readLE]
  | succ n ih =>
    simp only [Memory.readLE]
    cases hb : mem.read a with
    | none =>
      simp only [Except.error.injEq]
      constructor
      · rintro rfl; exact ⟨0, by omega, by omega, hb, by simp⟩
      · rintro ⟨k, _, rfl, hn, hall⟩
        cases k with
        | zero => rfl
        | succ k => have := hall 0 (by omega); simp [hb] at this
    | some b =>
      simp only []
      have hiff : (match mem.readLE (a + 1) n with
          | .error e => (Except.error e : Except Nat (BitVec (8 * (n + 1))))
          | .ok hi => .ok (hi ++ b)) = .error x ↔ mem.readLE (a + 1) n = .error x := by
        split <;> simp_all
      refine hiff.trans ((ih (a + 1)).trans ?_)
      constructor
      · rintro ⟨k, hk, rfl, hn, hall⟩
        refine ⟨k + 1, by omega, by omega, hn, fun j hj => ?_⟩
        cases j with
        | zero => simp [hb]
        | succ j => rw [show a + (j + 1) = a + 1 + j by omega]; exact hall j (by omega)
      · rintro ⟨k, hk, rfl, hn, hall⟩
        cases k with
        | zero => simp [hb] at hn
        | succ k =>
          refine ⟨k, by omega, by omega, hn, fun j hj => ?_⟩
          have := hall (j + 1) (by omega)
          rwa [show a + (j + 1) = a + 1 + j by omega] at this

end Sys2Proof.Machine
end

