-- ==== Sys2Proof/Laws/Exec.lean ====
section
/-! SUPPORT. What each shared operation can do, said once: the checks, one inversion lemma per
encoding class, and the step. -/

namespace Sys2Proof.Machine

/-- The checks of a class pass exactly when the conditions of R221 hold. -/
theorem checks_eq_none_iff (c : EncClass) (s : State) : checks c s = none ↔ Ready c s := by
  have h3 : decide (field s.xcr0 1 2 = 3#2) = (bitAt s.xcr0 1 && bitAt s.xcr0 2) := by
    rw [Bool.eq_iff_iff, decide_eq_true_iff, Bool.and_eq_true, ← BitVec.toNat_inj]
    simp only [BitVec.extractLsb'_toNat, BitVec.toNat_ofNat, bitAt, BitVec.getLsbD,
      Nat.testBit_eq_decide_div_mod_eq, decide_eq_true_eq, Nat.shiftRight_eq_div_pow]
    omega
  have hx : s.avxStateEnabled = (bitAt s.xcr0 1 && bitAt s.xcr0 2) := h3
  unfold checks
  split_ifs with h1 h2 h4 <;>
    cases c <;> simp_all [Ready, environmentUD, State.crEM, State.crTS, State.osfxsr,
      State.osxsave, State.x87ErrorPending]
  all_goals
    intro h5 _ h6
    rcases h1 with h1 | h1
    · simp_all
    · first
      | (simp_all; done)
      | (intro h7; simp_all)

/-- What an `MMX64` form does when it answers a next state. -/
theorem addMmx_eq_next_iff (w : Width) (e : LegacyEnc) (reg : BitVec 3) (rm : RegMem)
    (s t : State) : addMmx w e reg rm s = .next t ↔
      ∃ m b, s.mode = .ok m ∧ Ready .mmx64 s ∧ s.mmxSource m e rm = .ok b ∧
        t = ((s.writeMm reg (packedAdd w.bits (s.readMm reg) b)).touchX87 reg).advance m
          (legacyLength e rm) := by
  simp only [← checks_eq_none_iff, addMmx, raise]
  constructor
  · intro h
    split at h <;> try contradiction
    next m hm =>
      split at h <;> try contradiction
      next hc =>
        split at h <;> try contradiction
        next b hb => cases h; exact ⟨m, b, hm, hc, hb, rfl⟩
  · rintro ⟨m, b, hm, hc, hb, rfl⟩
    simp [hm, hc, hb]

/-- What an `SSE128` form does when it answers a next state. -/
theorem addSse_eq_next_iff (w : Width) (e : LegacyEnc) (reg : BitVec 3) (rm : RegMem)
    (s t : State) : addSse w e reg rm s = .next t ↔
      ∃ m b, s.mode = .ok m ∧ Ready .sse128 s ∧ s.sseSource m e rm = .ok b ∧
        t = (s.writeXmmKeep (extend3 (rexR e) reg)
          (packedAdd w.bits (s.readXmm (extend3 (rexR e) reg)) b)).advance m
            (legacyLength e rm) := by
  simp only [← checks_eq_none_iff, addSse, raise]
  constructor
  · intro h
    split at h <;> try contradiction
    next m hm =>
      split at h <;> try contradiction
      next hc =>
        split at h <;> try contradiction
        next b hb => cases h; exact ⟨m, b, hm, hc, hb, rfl⟩
  · rintro ⟨m, b, hm, hc, hb, rfl⟩
    simp [hm, hc, hb]

/-- What a `VEX128` form does when it answers a next state. -/
theorem addXmm_eq_next_iff (w : Width) (e : VexEnc) (reg : BitVec 3) (rm : RegMem)
    (s t : State) : addXmm w e reg rm s = .next t ↔
      ∃ m b, s.mode = .ok m ∧ Ready .vex128 s ∧ s.xmmSource m e rm = .ok b ∧
        t = (s.writeXmmZero (extend3 (vexR e) reg)
          (packedAdd w.bits (s.readXmm e.vvvv) b)).advance m (vexLength e rm) := by
  simp only [← checks_eq_none_iff, addXmm, raise]
  constructor
  · intro h
    split at h <;> try contradiction
    next m hm =>
      split at h <;> try contradiction
      next hc =>
        split at h <;> try contradiction
        next b hb => cases h; exact ⟨m, b, hm, hc, hb, rfl⟩
  · rintro ⟨m, b, hm, hc, hb, rfl⟩
    simp [hm, hc, hb]

/-- What a `VEX256` form does when it answers a next state. -/
theorem addYmm_eq_next_iff (w : Width) (e : VexEnc) (reg : BitVec 3) (rm : RegMem)
    (s t : State) : addYmm w e reg rm s = .next t ↔
      ∃ m b, s.mode = .ok m ∧ Ready .vex256 s ∧ s.ymmSource m e rm = .ok b ∧
        t = (s.writeYmm (extend3 (vexR e) reg)
          (packedAdd w.bits (s.readYmm e.vvvv) b)).advance m (vexLength e rm) := by
  simp only [← checks_eq_none_iff, addYmm, raise]
  constructor
  · intro h
    split at h <;> try contradiction
    next m hm =>
      split at h <;> try contradiction
      next hc =>
        split at h <;> try contradiction
        next b hb => cases h; exact ⟨m, b, hm, hc, hb, rfl⟩
  · rintro ⟨m, b, hm, hc, hb, rfl⟩
    simp [hm, hc, hb]

/-- An instruction that answers a next state is a form of one of the four classes, and answers it
through its class's operation. -/
theorem exec_eq_next {i : Instr} {s t : State} (h : exec i s = .next t) :
    (∃ w e reg rm, i = mkMmx w e reg rm ∧ addMmx w e reg rm s = .next t) ∨
    (∃ w e reg rm, i = mkSse w e reg rm ∧ addSse w e reg rm s = .next t) ∨
    (∃ w e reg rm, i = mkXmm w e reg rm ∧ addXmm w e reg rm s = .next t) ∨
    (∃ w e reg rm, i = mkYmm w e reg rm ∧ addYmm w e reg rm s = .next t) := by
  cases i with
  | paddbMmx e reg rm => exact .inl ⟨.byte, e, reg, rm, rfl, h⟩
  | paddwMmx e reg rm => exact .inl ⟨.word, e, reg, rm, rfl, h⟩
  | padddMmx e reg rm => exact .inl ⟨.dword, e, reg, rm, rfl, h⟩
  | paddbSse e reg rm => exact .inr (.inl ⟨.byte, e, reg, rm, rfl, h⟩)
  | paddwSse e reg rm => exact .inr (.inl ⟨.word, e, reg, rm, rfl, h⟩)
  | padddSse e reg rm => exact .inr (.inl ⟨.dword, e, reg, rm, rfl, h⟩)
  | vpaddbXmm e reg rm => exact .inr (.inr (.inl ⟨.byte, e, reg, rm, rfl, h⟩))
  | vpaddwXmm e reg rm => exact .inr (.inr (.inl ⟨.word, e, reg, rm, rfl, h⟩))
  | vpadddXmm e reg rm => exact .inr (.inr (.inl ⟨.dword, e, reg, rm, rfl, h⟩))
  | vpaddbYmm e reg rm => exact .inr (.inr (.inr ⟨.byte, e, reg, rm, rfl, h⟩))
  | vpaddwYmm e reg rm => exact .inr (.inr (.inr ⟨.word, e, reg, rm, rfl, h⟩))
  | vpadddYmm e reg rm => exact .inr (.inr (.inr ⟨.dword, e, reg, rm, rfl, h⟩))

/-- The checks' fault is the instruction's. -/
theorem exec_eq_fault_of_checks {i : Instr} {s : State} {m : Mode} {f : Fault}
    (hm : s.mode = .ok m) (h : checks i.cls s = some f) : exec i s = .fault f := by
  cases i <;> simp only [Instr.cls] at h <;>
    simp only [exec, execPaddbMmx, execPaddbSse, execPaddwMmx, execPaddwSse, execPadddMmx,
      execPadddSse, execVpaddbXmm, execVpaddwXmm, execVpadddXmm, execVpaddbYmm, execVpaddwYmm,
      execVpadddYmm, addMmx, addSse, addXmm, addYmm, hm, h, raise]

/-- What a step does when it answers a next state. -/
theorem step_eq_next_iff (s t : State) : step s = .next t ↔
    ∃ m i, s.mode = .ok m ∧ s.fetch m = .ok i ∧ exec i s = .next t := by
  unfold step
  constructor
  · intro h
    split at h <;> try contradiction
    next m hm =>
      split at h
      · next stop _ => cases stop <;> cases h
      · next i hi => exact ⟨m, i, hm, hi, h⟩
  · rintro ⟨m, i, hm, hi, h⟩
    simp [hm, hi, h]

/-- What the fetch answers when it answers an instruction. -/
theorem fetch_eq_ok_iff (s : State) (m : Mode) (i : Instr) : s.fetch m = .ok i ↔
    s.ipCanonical m 0 = true ∧ s.ipCanonical m i.length = true ∧
      ∃ rest, decode m s.cpu.admit16 (s.codeBytes m 0 Config.maxLength).1 = .instr i rest := by
  unfold State.fetch
  cases s.ipCanonical m 0
  · simp
  · cases hd : decode m s.cpu.admit16 (s.codeBytes m 0 Config.maxLength).1 with
    | instr j rest =>
      simp only [Bool.not_true, Bool.false_eq_true, if_false]
      constructor
      · intro h
        split at h
        · next hc => cases h; exact ⟨trivial, hc, rest, rfl⟩
        · cases h
      · rintro ⟨_, hc, r, hr⟩
        cases hr
        simp [hc]
    | invalidOpcode => simp
    | reject r => simp
    | truncated => simp

/-- The instruction byte at `ip + k` is held, at an address to fetch from. -/
theorem codeByte_eq_ok_iff (s : State) (m : Mode) (k : Nat) (b : Byte) :
    s.codeByte m k = .ok b ↔ codeAddress m (s.codeStart m + k) = true ∧
      s.pastCodeLimit m k = false ∧ s.mem.read (s.codeStart m + k) = some b := by
  unfold State.codeByte
  cases codeAddress m (s.codeStart m + k)
  · simp
  · cases s.pastCodeLimit m k
    · cases s.mem.read (s.codeStart m + k) <;> simp
    · simp

/-- The fetch gets the bytes that stand at `ip + k`, and whatever follows them. -/
theorem codeBytes_of_codeByte (s : State) (m : Mode) (bytes : List Byte) (k n : Nat)
    (h : ∀ (j : Nat) (hj : j < bytes.length), s.codeByte m (k + j) = .ok bytes[j])
    (hn : bytes.length ≤ n) : ∃ more, (s.codeBytes m k n).1 = bytes ++ more := by
  induction bytes generalizing k n with
  | nil => exact ⟨_, rfl⟩
  | cons b t ih =>
    cases n with
    | zero => simp at hn
    | succ n =>
      have h0 := h 0 (by simp)
      simp only [Nat.add_zero, List.getElem_cons_zero] at h0
      obtain ⟨more, hm⟩ := ih (k + 1) n
        (fun j hj => by
          have := h (j + 1) (by simpa using hj)
          simpa [Nat.add_assoc, Nat.add_comm 1] using this)
        (by simpa using hn)
      exact ⟨more, by simp [State.codeBytes, h0, hm]⟩

/-- The bytes the fetch got stand at `ip + k`. -/
theorem codeByte_of_codeBytes (s : State) (m : Mode) (k n : Nat) (bytes more : List Byte)
    (h : (s.codeBytes m k n).1 = bytes ++ more) (j : Nat) (hj : j < bytes.length) :
    s.codeByte m (k + j) = .ok bytes[j] := by
  induction bytes generalizing k n j with
  | nil => simp at hj
  | cons b t ih =>
    cases n with
    | zero => simp [State.codeBytes] at h
    | succ n =>
      simp only [State.codeBytes] at h
      split at h
      · next c hc =>
        simp only [List.cons_append, List.cons.injEq] at h
        obtain ⟨rfl, h⟩ := h
        cases j with
        | zero => exact hc
        | succ j => simpa [Nat.add_assoc, Nat.add_comm 1] using ih (k + 1) n h j (by simpa using hj)
      · simp at h

end Sys2Proof.Machine
end

