-- ==== Sys2Proof/Laws/PackedAdd.lean ====
section
/-! SUPPORT. What the lane addition is, bit by bit (40_packed_add_common.md R130). -/

namespace Sys2Proof.Machine

/-- A bit of a lane. -/
theorem getLsbD_lane {n : Nat} (w : Nat) (v : BitVec n) (k j : Nat) :
    (lane w v k).getLsbD j = (decide (j < w) && v.getLsbD (w * k + j)) := by
  simp [lane]

/-- The bits of the lowest `k` lanes of a sum: bit `i` is bit `i mod w` of the sum in lane
`i / w`, and nothing stands above the lanes. -/
theorem getLsbD_packedAddLow {n : Nat} (w : Nat) (hw : 0 < w) (a b : BitVec n) (k i : Nat)
    (hk : w * k ≤ n) : (packedAddLow w a b k).getLsbD i =
      (decide (i < w * k) && (lane w a (i / w) + lane w b (i / w)).getLsbD (i % w)) := by
  induction k with
  | zero => simp [packedAddLow]
  | succ k ih =>
    have hk' : w * k ≤ n := le_trans (Nat.mul_le_mul_left w (Nat.le_succ k)) hk
    have hs : w * (k + 1) = w * k + w := Nat.mul_succ w k
    rw [packedAddLow, BitVec.getLsbD_or, ih hk', BitVec.getLsbD_shiftLeft, BitVec.getLsbD_setWidth]
    by_cases h1 : i < w * k
    · have h2 : i < w * (k + 1) := by omega
      simp [h1, h2]
    · by_cases h2 : i < w * (k + 1)
      · have hd : i / w = k := by
          have e : i = (i - w * k) + w * k := by omega
          rw [e, Nat.add_mul_div_left _ _ hw, Nat.div_eq_of_lt (by omega), Nat.zero_add]
        have hm : i % w = i - w * k := by
          have := Nat.div_add_mod i w
          rw [hd] at this
          omega
        have hn : i < n := by omega
        have hn' : i - w * k < n := by omega
        simp [h1, h2, hd, hm, hn, hn']
      · have h3 : w ≤ i - w * k := by omega
        simp [h1, h2, BitVec.getLsbD_of_ge _ _ h3]

/-- The bits of `packedAdd` when the lanes fill the operand. -/
theorem getLsbD_packedAdd {n : Nat} (w : Nat) (hw : 0 < w) (hn : w * (n / w) = n)
    (a b : BitVec n) (i : Nat) (hi : i < n) : (packedAdd w a b).getLsbD i =
      (lane w a (i / w) + lane w b (i / w)).getLsbD (i % w) := by
  rw [packedAdd, getLsbD_packedAddLow w hw a b _ _ (le_of_eq hn), hn]
  simp [hi]

end Sys2Proof.Machine
end

