-- ==== Sys2Proof/Laws/PerInstr.lean ====
section
/-! SUPPORT. One lemma per instruction: the length the machine advances by is the number of bytes the
encoder writes (30_encoding.md R116). -/

namespace Sys2Proof.Laws.EncodedLength

/-- `len` is "the number of bytes from the first prefix to the last displacement byte" (R116). -/
def Statement (i : Instr) : Prop := (encode i).length = i.length

theorem legacy (w : Width) (e : LegacyEnc) (reg : BitVec 3) (rm : RegMem) :
    (encodeLegacy w e reg rm).length = legacyLength e rm := by
  obtain ⟨ps, rex⟩ := e
  cases rex <;>
    simp [encodeLegacy, legacyLength, rexBytes, RegMem.length_bytes] <;> omega

theorem vex (l : Bool) (w : Width) (e : VexEnc) (reg : BitVec 3) (rm : RegMem) :
    (encodeVex l w e reg rm).length = vexLength e rm := by
  obtain ⟨ps, form, v⟩ := e
  cases form <;>
    simp [encodeVex, vexLength, vexBytes, VexForm.length, RegMem.length_bytes] <;> omega

theorem paddbMmx (e : LegacyEnc) (reg : BitVec 3) (rm : RegMem) :
    Statement (.paddbMmx e reg rm) := legacy _ e reg rm

theorem paddbSse (e : LegacyEnc) (reg : BitVec 3) (rm : RegMem) :
    Statement (.paddbSse e reg rm) := legacy _ e reg rm

theorem paddwMmx (e : LegacyEnc) (reg : BitVec 3) (rm : RegMem) :
    Statement (.paddwMmx e reg rm) := legacy _ e reg rm

theorem paddwSse (e : LegacyEnc) (reg : BitVec 3) (rm : RegMem) :
    Statement (.paddwSse e reg rm) := legacy _ e reg rm

theorem padddMmx (e : LegacyEnc) (reg : BitVec 3) (rm : RegMem) :
    Statement (.padddMmx e reg rm) := legacy _ e reg rm

theorem padddSse (e : LegacyEnc) (reg : BitVec 3) (rm : RegMem) :
    Statement (.padddSse e reg rm) := legacy _ e reg rm

theorem vpaddbXmm (e : VexEnc) (reg : BitVec 3) (rm : RegMem) :
    Statement (.vpaddbXmm e reg rm) := vex _ _ e reg rm

theorem vpaddwXmm (e : VexEnc) (reg : BitVec 3) (rm : RegMem) :
    Statement (.vpaddwXmm e reg rm) := vex _ _ e reg rm

theorem vpadddXmm (e : VexEnc) (reg : BitVec 3) (rm : RegMem) :
    Statement (.vpadddXmm e reg rm) := vex _ _ e reg rm

theorem vpaddbYmm (e : VexEnc) (reg : BitVec 3) (rm : RegMem) :
    Statement (.vpaddbYmm e reg rm) := vex _ _ e reg rm

theorem vpaddwYmm (e : VexEnc) (reg : BitVec 3) (rm : RegMem) :
    Statement (.vpaddwYmm e reg rm) := vex _ _ e reg rm

theorem vpadddYmm (e : VexEnc) (reg : BitVec 3) (rm : RegMem) :
    Statement (.vpadddYmm e reg rm) := vex _ _ e reg rm

end Sys2Proof.Laws.EncodedLength
end

