-- ==== Sys2Proof/Tests/Slice0.lean ====
section
/-! SUPPORT. The model's own tests: the well-formedness smoke test, words decoded bit by bit, one step
on small states, and a witness for the hypotheses of every obligation. Every expected value is one
of spec/95_test_vectors.md, named beside the test, or of the rule named there. -/

namespace Sys2Proof.Tests

open Sys2Proof.Machine Sys2Proof.Claims

/-! ### Small states -/

/-- Right after a launch, `ip` at 1000H. -/
def base (m : Mode) : State := { State.reset.launch m with ip := 0x1000#64 }

def withGpr (i : BitVec 4) (v : Word64) (s : State) : State :=
  { s with gpr := s.gpr.set i.toNat v }

/-- The bytes of a little-endian value of `n` bytes at `a`. -/
def withValue (a n : Nat) (v : Nat) (s : State) : State :=
  s.placeBytes a ((List.range n).map fun k => BitVec.ofNat 8 (v >>> (8 * k)))

/-- One step of the instruction `bytes` at `ip`. -/
def run (bytes : List Byte) (s : State) : Result := step (s.placeBytes s.ip.toNat bytes)

/-- What a next state shows. -/
def shows {α : Type} (o : Result) (f : State → α) : Option α :=
  match o with
  | .next t => some (f t)
  | _ => none

/-- Why a step stops. -/
def stopOf (o : Result) : Option Stop :=
  match o with
  | .next _ => none
  | .fault f => some (.fault f)
  | .refused r => some (.refused r)

/-! ### Well-formedness: one ill-formed term for each check -/

/-- Each check of the legacy encodings refuses: a repeated kind of prefix, LOCK, F2H, F3H, 66H on
an `MMX64` form, no 66H on an `SSE128` form, REX in `Mode32`, 67H in `Mode32` not admitted. -/
theorem test_wf_legacy :
    Instr.wf .mode64 false (.paddbMmx ⟨[.seg .fs, .seg .gs], none⟩ 0#3 (.reg 0#3)) = false ∧
    Instr.wf .mode64 false (.paddbMmx ⟨[.lock], none⟩ 0#3 (.reg 0#3)) = false ∧
    Instr.wf .mode64 false (.paddbMmx ⟨[.repne], none⟩ 0#3 (.reg 0#3)) = false ∧
    Instr.wf .mode64 false (.paddbMmx ⟨[.rep], none⟩ 0#3 (.reg 0#3)) = false ∧
    Instr.wf .mode64 false (.paddbMmx ⟨[.opSize], none⟩ 0#3 (.reg 0#3)) = false ∧
    Instr.wf .mode64 false (.paddbSse ⟨[], none⟩ 0#3 (.reg 0#3)) = false ∧
    Instr.wf .mode32 false (.paddbMmx ⟨[], some ⟨false, false, false, false⟩⟩ 0#3 (.reg 0#3))
      = false ∧
    Instr.wf .mode32 false (.paddbMmx ⟨[.addrSize], none⟩ 0#3 (.reg 0#3)) = false ∧
    Instr.wf .mode32 true (.paddbMmx ⟨[.addrSize], none⟩ 0#3 (.reg 0#3)) = true ∧
    Instr.wf .mode64 false (.paddbMmx ⟨[.addrSize, .seg .fs], none⟩ 0#3 (.reg 0#3)) = true := by
  decide

/-- Each check of the memory forms refuses: `rm = 100` and `rm = 101` with `mod = 00` as a base, an
SIB base 101 with `mod = 00`, 16-bit forms without 67H, others with it, `rm = 110` with
`mod = 00` in 16-bit addressing. -/
theorem test_wf_memory :
    MemForm.wf false (.base 4#3 .none) = false ∧
    MemForm.wf false (.base 5#3 .none) = false ∧
    MemForm.wf false (.base 5#3 (.disp8 0#8)) = true ∧
    MemForm.wf false (.sib 0#2 0#3 5#3 .none) = false ∧
    MemForm.wf false (.base16 0#3 .none) = false ∧
    MemForm.wf false (.disp16 0#16) = false ∧
    MemForm.wf true (.base 0#3 .none) = false ∧
    MemForm.wf true (.disp32 0#32) = false ∧
    MemForm.wf true (.sib 0#2 0#3 0#3 .none) = false ∧
    MemForm.wf true (.sibNoBase 0#2 0#3 0#32) = false ∧
    MemForm.wf true (.base16 6#3 .none) = false ∧
    Instr.wf .mode64 false (.paddbMmx ⟨[], none⟩ 0#3 (.mem (.base 4#3 .none))) = false := by
  decide

/-- Each check of the VEX encodings refuses: 66H before it, a repeated prefix, LOCK, and in `Mode32`
an extension bit, `vvvv >= 8` and 67H not admitted. -/
theorem test_wf_vex :
    Instr.wf .mode64 false (.vpaddbXmm ⟨[.opSize], .two false, 0#4⟩ 0#3 (.reg 0#3)) = false ∧
    Instr.wf .mode64 false (.vpaddbXmm ⟨[.addrSize, .addrSize], .two false, 0#4⟩ 0#3 (.reg 0#3))
      = false ∧
    Instr.wf .mode64 false (.vpaddbXmm ⟨[.lock], .two false, 0#4⟩ 0#3 (.reg 0#3)) = false ∧
    Instr.wf .mode32 false (.vpaddbXmm ⟨[], .two true, 0#4⟩ 0#3 (.reg 0#3)) = false ∧
    Instr.wf .mode32 false (.vpaddbXmm ⟨[], .three false true false false, 0#4⟩ 0#3 (.reg 0#3))
      = false ∧
    Instr.wf .mode32 false (.vpaddbXmm ⟨[], .three false false true false, 0#4⟩ 0#3 (.reg 0#3))
      = false ∧
    Instr.wf .mode32 false (.vpaddbXmm ⟨[], .two false, 8#4⟩ 0#3 (.reg 0#3)) = false ∧
    Instr.wf .mode32 false (.vpaddbXmm ⟨[.addrSize], .two false, 0#4⟩ 0#3 (.reg 0#3)) = false ∧
    Instr.wf .mode32 false (.vpaddbXmm ⟨[], .two false, 7#4⟩ 0#3 (.reg 0#3)) = true := by
  decide

/-! ### Decoding: words written out from the encodings -/

/-- V-D1, V-D6, V-D8, V-D9, V-D12. -/
theorem test_decode_paddbMmx :
    decode .mode32 false [0x0F#8, 0xFC#8, 0b11001010#8] =
      .instr (.paddbMmx ⟨[], none⟩ 1#3 (.reg 2#3)) [] ∧
    decode .mode64 false [0x0F#8, 0xFC#8, 0x4D#8, 0x00#8] =
      .instr (.paddbMmx ⟨[], none⟩ 1#3 (.mem (.base 5#3 (.disp8 0#8)))) [] ∧
    decode .mode64 false [0x41#8, 0x0F#8, 0xFC#8, 0x4D#8, 0x00#8] =
      .instr (.paddbMmx ⟨[], some ⟨false, false, false, true⟩⟩ 1#3
        (.mem (.base 5#3 (.disp8 0#8)))) [] ∧
    decode .mode64 false [0x0F#8, 0xFC#8, 0x0C#8, 0x25#8, 0x00#8, 0x10#8, 0x00#8, 0x00#8] =
      .instr (.paddbMmx ⟨[], none⟩ 1#3 (.mem (.sibNoBase 0#2 4#3 0x1000#32))) [] ∧
    decode .mode64 false [0x0F#8, 0xFC#8, 0x0C#8, 0x00#8] =
      .instr (.paddbMmx ⟨[], none⟩ 1#3 (.mem (.sib 0#2 0#3 0#3 .none))) [] := by
  decide

/-- V-D4, with a byte after it that is not the instruction's. -/
theorem test_decode_paddwMmx :
    decode .mode32 false [0x0F#8, 0xFD#8, 0x5E#8, 0x08#8, 0x90#8] =
      .instr (.paddwMmx ⟨[], none⟩ 3#3 (.mem (.base 6#3 (.disp8 8#8)))) [0x90#8] := by
  decide

/-- V-D2, V-D5. -/
theorem test_decode_padddMmx :
    decode .mode64 false [0x0F#8, 0xFE#8, 0b11111111#8] =
      .instr (.padddMmx ⟨[], none⟩ 7#3 (.reg 7#3)) [] ∧
    decode .mode64 false [0x0F#8, 0xFE#8, 0x14#8, 0x24#8] =
      .instr (.padddMmx ⟨[], none⟩ 2#3 (.mem (.sib 0#2 4#3 4#3 .none))) [] := by
  decide

/-- V-D15, V-D18 (the longest encoding), V-D19. -/
theorem test_decode_paddbSse :
    decode .mode64 false [0x66#8, 0x44#8, 0x0F#8, 0xFC#8, 0x4B#8, 0x10#8] =
      .instr (.paddbSse ⟨[.opSize], some ⟨false, true, false, false⟩⟩ 1#3
        (.mem (.base 3#3 (.disp8 0x10#8)))) [] ∧
    decode .mode64 false [0x2E#8, 0x67#8, 0x66#8, 0x41#8, 0x0F#8, 0xFC#8, 0x84#8, 0x88#8,
        0x78#8, 0x56#8, 0x34#8, 0x12#8] =
      .instr (.paddbSse ⟨[.seg .cs, .addrSize, .opSize], some ⟨false, false, false, true⟩⟩ 0#3
        (.mem (.sib 2#2 1#3 0#3 (.disp32 0x12345678#32)))) [] ∧
    decode .mode64 false [0x66#8, 0x48#8, 0x0F#8, 0xFC#8, 0xCA#8] =
      .instr (.paddbSse ⟨[.opSize], some ⟨true, false, false, false⟩⟩ 1#3 (.reg 2#3)) [] := by
  decide

/-- V-D14, V-D16. -/
theorem test_decode_paddwSse :
    decode .mode64 false [0x66#8, 0x45#8, 0x0F#8, 0xFD#8, 0xC7#8] =
      .instr (.paddwSse ⟨[.opSize], some ⟨false, true, false, true⟩⟩ 0#3 (.reg 7#3)) [] ∧
    decode .mode64 false [0x64#8, 0x66#8, 0x0F#8, 0xFD#8, 0x08#8] =
      .instr (.paddwSse ⟨[.seg .fs, .opSize], none⟩ 1#3 (.mem (.base 0#3 .none))) [] := by
  decide

/-- V-D17. -/
theorem test_decode_padddSse :
    decode .mode32 false [0x65#8, 0x66#8, 0x0F#8, 0xFE#8, 0x7F#8, 0xFF#8] =
      .instr (.padddSse ⟨[.seg .gs, .opSize], none⟩ 7#3 (.mem (.base 7#3 (.disp8 0xFF#8)))) [] := by
  decide

/-- V-D20, V-D21, V-D22 (`W = 1`), V-D32: `P = E9H = 1 1101 0 01b`. -/
theorem test_decode_vpaddbXmm :
    decode .mode32 false [0xC5#8, 0b11101001#8, 0xFC#8, 0xCB#8] =
      .instr (.vpaddbXmm ⟨[], .two false, 2#4⟩ 1#3 (.reg 3#3)) [] ∧
    decode .mode32 false [0xC4#8, 0b11100001#8, 0b01101001#8, 0xFC#8, 0xCB#8] =
      .instr (.vpaddbXmm ⟨[], .three false false false false, 2#4⟩ 1#3 (.reg 3#3)) [] ∧
    decode .mode64 false [0xC4#8, 0xE1#8, 0b11101001#8, 0xFC#8, 0xCB#8] =
      .instr (.vpaddbXmm ⟨[], .three false false false true, 2#4⟩ 1#3 (.reg 3#3)) [] ∧
    decode .mode64 false [0xC5#8, 0xE9#8, 0xFC#8, 0x0D#8, 0x00#8, 0x00#8, 0x00#8, 0x00#8] =
      .instr (.vpaddbXmm ⟨[], .two false, 2#4⟩ 1#3 (.mem (.disp32 0#32))) [] := by
  decide

/-- V-D23. -/
theorem test_decode_vpaddwXmm :
    decode .mode64 false [0xC4#8, 0x41#8, 0x21#8, 0xFD#8, 0x14#8, 0x24#8] =
      .instr (.vpaddwXmm ⟨[], .three true false true false, 11#4⟩ 2#3
        (.mem (.sib 0#2 4#3 4#3 .none))) [] := by
  decide

/-- V-X13's word. -/
theorem test_decode_vpadddXmm :
    decode .mode64 false [0xC4#8, 0xC1#8, 0x61#8, 0xFE#8, 0x5D#8, 0x00#8] =
      .instr (.vpadddXmm ⟨[], .three false false true false, 3#4⟩ 3#3
        (.mem (.base 5#3 (.disp8 0#8)))) [] := by
  decide

/-- V-D26. -/
theorem test_decode_vpaddbYmm :
    decode .mode64 false [0xC4#8, 0x41#8, 0x35#8, 0xFC#8, 0xC2#8] =
      .instr (.vpaddbYmm ⟨[], .three true false true false, 9#4⟩ 0#3 (.reg 2#3)) [] := by
  decide

/-- V-D27, field by field there; V-D31. -/
theorem test_decode_vpaddwYmm :
    decode .mode64 false [0xC5#8, 0b10000101#8, 0xFD#8, 0b01001100#8, 0b10001000#8, 0x20#8] =
      .instr (.vpaddwYmm ⟨[], .two false, 15#4⟩ 1#3 (.mem (.sib 2#2 1#3 0#3 (.disp8 0x20#8)))) [] ∧
    decode .mode32 false [0xC5#8, 0xC5#8, 0xFD#8, 0xFF#8] =
      .instr (.vpaddwYmm ⟨[], .two false, 7#4⟩ 7#3 (.reg 7#3)) [] := by
  decide

/-- V-D29, field by field there; V-D30. -/
theorem test_decode_vpadddYmm :
    decode .mode64 false [0xC4#8, 0b00000001#8, 0b00010101#8, 0xFE#8, 0b01100100#8, 0b11111110#8,
        0xFC#8] =
      .instr (.vpadddYmm ⟨[], .three true true true false, 13#4⟩ 4#3
        (.mem (.sib 3#2 7#3 6#3 (.disp8 0xFC#8)))) [] ∧
    decode .mode32 false [0xC5#8, 0xFD#8, 0xFE#8, 0x7D#8, 0x04#8] =
      .instr (.vpadddYmm ⟨[], .two false, 0#4⟩ 7#3 (.mem (.base 5#3 (.disp8 4#8)))) [] := by
  decide

/-- V-F15 to V-F20 and V-F23 to V-F25: what the decoder does not take, by name. -/
theorem test_decode_refusals :
    decode .mode32 false [0xF0#8, 0x0F#8, 0xFC#8, 0x00#8] = .invalidOpcode ∧
    decode .mode64 false [0x66#8, 0xC5#8, 0xE9#8, 0xFC#8, 0xCB#8] = .invalidOpcode ∧
    decode .mode64 false [0x41#8, 0xC5#8, 0xE9#8, 0xFC#8, 0xCB#8] = .invalidOpcode ∧
    decode .mode32 false [0xF3#8, 0x0F#8, 0xFC#8, 0xCA#8] = .reject .repeatString ∧
    decode .mode64 false [0xF2#8, 0x0F#8, 0xFE#8, 0xCA#8] = .reject .repeatString ∧
    decode .mode64 false [0x66#8, 0x66#8, 0x0F#8, 0xFC#8, 0xCA#8] = .reject .repeatedPrefix ∧
    decode .mode64 false [0x41#8, 0x66#8, 0x0F#8, 0xFC#8, 0xCA#8] = .reject .rexNotLast ∧
    decode .mode32 false [0xC5#8, 0x6D#8, 0xFE#8, 0x0B#8] = .reject .lesOrLds ∧
    decode .mode32 false [0xC4#8, 0xC1#8, 0x61#8, 0xFE#8, 0x5D#8, 0x00#8] =
      .reject .vexRegisterInMode32 ∧
    decode .mode64 false [0x0F#8, 0xFB#8, 0xCA#8] = .reject .outOfScope ∧
    decode .mode64 false [0xC5#8, 0xE9#8, 0xFB#8, 0xCB#8] = .reject .outOfScope ∧
    decode .mode64 false [0xC5#8, 0xEA#8, 0xFC#8, 0xCB#8] = .reject .outOfScope ∧
    decode .mode64 false [0xC4#8, 0xE2#8, 0x69#8, 0xFC#8, 0xCB#8] = .reject .outOfScope := by
  decide

/-- Words of opcode_table.json: rows 1, 8 and 12 with every free bit 0. -/
theorem test_decode_tableWord :
    decodeTableWord 16 0x0FFC = some (.paddbMmx ⟨[], none⟩ 0#3 (.mem (.base 0#3 .none))) ∧
    decodeTableWord 32 0xC40101FD = some (.vpaddwXmm ⟨[], .three true true true false, 15#4⟩ 0#3
      (.mem (.base 0#3 .none))) ∧
    decodeTableWord 32 0xC40105FE = some (.vpadddYmm ⟨[], .three true true true false, 15#4⟩ 0#3
      (.mem (.base 0#3 .none))) := by
  decide

/-- The first step after such a word was placed runs it: `ip` is past its three bytes. -/
theorem test_step_withFetchWord :
    shows (step (State.reset.withFetchWord 16 0x0FFC)) (·.ip) = some 0xFFF3#64 := by
  decide

/-! ### One step of each instruction -/

/-- V-M1, and `x87_tag`, `x87_hi[1]` of section 2.2. -/
theorem test_paddbMmx_reg :
    shows (run [0x0F#8, 0xFC#8, 0xCA#8]
      (((base .mode32).writeMm 1#3 0x017F80FF00FE10F0#64).writeMm 2#3 0x0101800100021010#64))
      (fun t => (t.readMm 1#3, t.x87Tag, t.x87Hi[1])) =
    some (0x0280000000002000#64, 0#16, 0xFFFF#16) := by decide

/-- V-MEM-9: 67H in `Mode64` addresses with EAX. -/
theorem test_paddbMmx_addr32 :
    shows (run [0x67#8, 0x0F#8, 0xFC#8, 0x08#8]
      (withValue 0x2000 8 0x0102030405060708 (withGpr 0#4 0xFFFFFFFF00002000#64 (base .mode64))))
      (fun t => t.readMm 1#3) = some 0x0102030405060708#64 := by decide

/-- V-M2, TOP 5 before (P1). -/
theorem test_paddwMmx_reg :
    shows (run [0x0F#8, 0xFD#8, 0xCA#8]
      ((({ base .mode64 with x87Status := 0x2841#16 }).writeMm 1#3 0x7FFF8000FFFF0001#64).writeMm 2#3
        0x0001800000010001#64))
      (fun t => (t.readMm 1#3, t.x87Status)) = some (0x8000000000000002#64, 0x41#16) := by decide

/-- V-MEM-4: `[ebx+8]`, little-endian. -/
theorem test_paddwMmx_mem :
    shows (run [0x0F#8, 0xFD#8, 0x4B#8, 0x08#8]
      (((withGpr 3#4 0x2000#64 (base .mode32)).placeBytes 0x2008
        [0x01#8, 0x00#8, 0xFF#8, 0xFF#8, 0x00#8, 0x80#8, 0xFF#8, 0x7F#8]).writeMm 1#3
        0x0001800000010001#64))
      (fun t => (t.readMm 1#3, t.ip)) = some (0x8000000000000002#64, 0x1004#64) := by decide

/-- V-M3: the low lane's carry is dropped. -/
theorem test_padddMmx_reg :
    shows (run [0x0F#8, 0xFE#8, 0xCA#8]
      (((base .mode64).writeMm 1#3 0x7FFFFFFFFFFFFFFF#64).writeMm 2#3 0x0000000100000001#64))
      (fun t => (t.readMm 1#3, t.readMm 2#3)) =
    some (0x8000000000000000#64, 0x0000000100000001#64) := by decide

/-- V-M11: the same register twice. -/
theorem test_padddMmx_same :
    shows (run [0x0F#8, 0xFE#8, 0xFF#8] ((base .mode32).writeMm 7#3 0x800000017FFFFFFF#64))
      (fun t => t.readMm 7#3) = some 0x00000002FFFFFFFE#64 := by decide

/-- V-MEM-5: REX.R selects register 9. -/
theorem test_paddbSse_mem :
    shows (run [0x66#8, 0x44#8, 0x0F#8, 0xFC#8, 0x4B#8, 0x10#8]
      (withValue 0x500010 16 0xF0F1F2F3F4F5F6F7F8F9FAFBFCFDFEFF
        ((withGpr 3#4 0x500000#64 (base .mode64)).writeYmm 9#4
          0x0F0E0D0C0B0A09080706050403020100#256)))
      (fun t => (t.readYmm 9#4, t.ip)) =
    some (0xFFFFFFFFFFFFFFFFFFFFFFFFFFFFFFFF#256, 0x1006#64) := by decide

/-- V-X4 and V-X7: the upper half is kept. -/
theorem test_paddbSse_upper :
    shows (run [0x66#8, 0x0F#8, 0xFC#8, 0xCA#8]
      (((base .mode32).writeYmm 1#4
        0xDEADBEEFDEADBEEFDEADBEEFDEADBEEFFFFFFFFF800000007FFFFFFF00000001#256).writeYmm 2#4
        0x000000018000000000000001FFFFFFFF#256))
      (fun t => t.readYmm 1#4) =
    some 0xDEADBEEFDEADBEEFDEADBEEFDEADBEEFFFFFFF00000000007FFFFF00FFFFFF00#256 := by decide

/-- V-X5 on registers 8 and 15 (P2, step 2). -/
theorem test_paddwSse_reg :
    shows (run [0x66#8, 0x45#8, 0x0F#8, 0xFD#8, 0xC7#8]
      (((base .mode64).writeYmm 8#4
        0xAAAAAAAAAAAAAAAAAAAAAAAAAAAAAAAAFFFFFFFF800000007FFFFFFF00000001#256).writeYmm 15#4
        0x55555555555555555555555555555555000000018000000000000001FFFFFFFF#256))
      (fun t => t.readYmm 8#4) =
    some 0xAAAAAAAAAAAAAAAAAAAAAAAAAAAAAAAAFFFF0000000000007FFF0000FFFF0000#256 := by decide

/-- R110: FS adds its base in `Mode64` (V-D16's word). -/
theorem test_paddwSse_fs :
    shows (run [0x64#8, 0x66#8, 0x0F#8, 0xFD#8, 0x08#8]
      (withValue 0x2010 16 0x00010001 { withGpr 0#4 0x10#64 (base .mode64) with
        segs := (base .mode64).segs.set 4 ⟨0x2000#64, 0#32⟩ }))
      (fun t => t.readXmm 1#4) = some 0x00010001#128 := by decide

/-- V-MEM-2. -/
theorem test_padddSse_mem :
    shows (run [0x66#8, 0x0F#8, 0xFE#8, 0x17#8]
      (((withGpr 7#4 0x3000#64 (base .mode64)).placeBytes 0x3000
        [0xFF#8, 0xFF#8, 0xFF#8, 0xFF#8, 0x01#8, 0x00#8, 0x00#8, 0x00#8, 0x00#8, 0x00#8, 0x00#8,
          0x80#8, 0x01#8, 0x00#8, 0x00#8, 0x00#8]).writeYmm 2#4
        0xFFFFFFFF800000007FFFFFFF00000001#256))
      (fun t => t.readXmm 2#4) = some 0x00000000000000008000000000000000#128 := by decide

/-- P2, step 3: relative to the next instruction (V-MEM-6). -/
theorem test_padddSse_rip :
    shows (run [0x66#8, 0x0F#8, 0xFE#8, 0x05#8, 0x0D#8, 0x01#8, 0x00#8, 0x00#8]
      (withValue 0x401120 16 0x000000010000000180000000FFFFFFFF
        { (base .mode64).writeYmm 0#4
            0x0123456789ABCDEF0123456789ABCDEF7FFFFFFFFFFFFFFF8000000000000001#256 with
          ip := 0x40100B#64 }))
      (fun t => (t.readYmm 0#4, t.ip)) =
    some (0x0123456789ABCDEF0123456789ABCDEF80000000000000000000000000000000#256, 0x401013#64) := by
  decide

/-- V-X10: three roles, one register; the upper half is zeroed. -/
theorem test_vpaddbXmm_same :
    shows (run [0xC5#8, 0xF9#8, 0xFC#8, 0xC0#8] ((base .mode64).writeYmm 0#4
        0x555555555555555555555555555555558000000040000000C0FFEE00817F0102#256))
      (fun t => t.readYmm 0#4) =
    some 0x000000008000000080FEDC0002FE0204#256 := by decide

/-- V-MEM-10: `[esp+ebp*2]` is at 8020H. -/
theorem test_vpaddbXmm_sib :
    shows (run [0xC5#8, 0xE9#8, 0xFC#8, 0x0C#8, 0x6C#8]
      (withValue 0x8020 16 0x0F0E0D0C0B0A09080706050403020100
        (withGpr 4#4 0x8000#64 (withGpr 5#4 0x10#64 (base .mode32)))))
      (fun t => t.readXmm 1#4) = some 0x0F0E0D0C0B0A09080706050403020100#128 := by decide

/-- V-MEM-7: no alignment asked for. -/
theorem test_vpaddwXmm_mem :
    shows (run [0xC4#8, 0x41#8, 0x21#8, 0xFD#8, 0x14#8, 0x24#8]
      (withValue 0x6008 16 0xF0F1F2F3F4F5F6F7F8F9FAFBFCFDFEFF
        ((withGpr 12#4 0x6008#64 (base .mode64)).writeYmm 11#4
          0x0F0E0D0C0B0A09080706050403020100#256)))
      (fun t => t.readYmm 10#4) = some 0xFFFFFFFFFFFFFFFFFFFFFFFFFFFFFFFF#256 := by decide

/-- V-X5 and V-X8. -/
theorem test_vpaddwXmm_reg :
    shows (run [0xC5#8, 0xE9#8, 0xFD#8, 0xCB#8]
      (((base .mode32).writeYmm 2#4 0xFFFFFFFF800000007FFFFFFF00000001#256).writeYmm 3#4
        0x000000018000000000000001FFFFFFFF#256))
      (fun t => t.readYmm 1#4) = some 0xFFFF0000000000007FFF0000FFFF0000#256 := by decide

/-- V-X13. -/
theorem test_vpadddXmm_mem :
    shows (run [0xC4#8, 0xC1#8, 0x61#8, 0xFE#8, 0x5D#8, 0x00#8]
      (withValue 0x7003 16 0x00000010000000100000001000000010
        ((withGpr 13#4 0x7003#64 (base .mode64)).writeYmm 3#4
          0xAAAAAAAAAAAAAAAAAAAAAAAAAAAAAAAA00000003000000020000000100000000#256)))
      (fun t => t.readYmm 3#4) = some 0x00000013000000120000001100000010#256 := by decide

/-- V-X6 and V-X8. -/
theorem test_vpadddXmm_reg :
    shows (run [0xC5#8, 0xE9#8, 0xFE#8, 0xCB#8]
      ((((base .mode64).writeYmm 2#4 0xFFFFFFFF800000007FFFFFFF00000001#256).writeYmm 3#4
        0x000000018000000000000001FFFFFFFF#256).writeYmm 1#4
        0xDEADBEEFDEADBEEFDEADBEEFDEADBEEF00000000000000000000000000000000#256))
      (fun t => t.readYmm 1#4) = some 0x00000000000000008000000000000000#256 := by decide

/-- Operand pair D. -/
def dA : BitVec 256 := 0x1F1E1D1C1B1A191817161514131211100F0E0D0C0B0A09080706050403020100#256
def dB : BitVec 256 := 0xE0E0E0E0E0E0E0E0F0F0F0F0F0F0F0F0FFFFFFFFFFFFFFFF8080808080808080#256

/-- V-Y4 on registers 8, 9, 10 (P3, step 2). -/
theorem test_vpaddbYmm_reg :
    shows (run [0xC4#8, 0x41#8, 0x35#8, 0xFC#8, 0xC2#8]
      (((base .mode64).writeYmm 9#4 dA).writeYmm 10#4 dB)) (fun t => t.readYmm 8#4) =
    some 0xFFFEFDFCFBFAF9F807060504030201000E0D0C0B0A0908078786858483828180#256 := by decide

/-- V-F22's form in `Mode32`, on bytes: `vpaddb ymm1, ymm2, [ebx]`. -/
theorem test_vpaddbYmm_mem :
    shows (run [0xC5#8, 0xED#8, 0xFC#8, 0x0B#8]
      (withValue 0x2001 32 dB.toNat (withGpr 3#4 0x2001#64 ((base .mode32).writeYmm 2#4 dA))))
      (fun t => t.readYmm 1#4) =
    some 0xFFFEFDFCFBFAF9F807060504030201000E0D0C0B0A0908078786858483828180#256 := by
  decide +kernel

/-- V-MEM-3, V-Y5: an odd address. -/
theorem test_vpaddwYmm_mem :
    shows (run [0xC5#8, 0xFD#8, 0xFD#8, 0x57#8, 0x20#8]
      (withValue 0x4021 32 dA.toNat (withGpr 7#4 0x4001#64 ((base .mode64).writeYmm 0#4 dB))))
      (fun t => (t.readYmm 2#4, t.ip)) =
    some (0xFFFEFDFCFBFAF9F808060604040202000F0D0D0B0B0909078786858483828180#256, 0x1005#64) := by
  decide

/-- V-Y2. -/
theorem test_vpaddwYmm_reg :
    shows (run [0xC5#8, 0xED#8, 0xFD#8, 0xCB#8]
      (((base .mode32).writeYmm 2#4 (BitVec.allOnes 256)).writeYmm 3#4
        0x0101010101010101010101010101010101010101010101010101010101010101#256))
      (fun t => t.readYmm 1#4) =
    some 0x0100010001000100010001000100010001000100010001000100010001000100#256 := by decide

/-- V-Y6. -/
theorem test_vpadddYmm_reg :
    shows (run [0xC5#8, 0xED#8, 0xFE#8, 0xCB#8]
      (((base .mode64).writeYmm 2#4 dA).writeYmm 3#4 dB)) (fun t => t.readYmm 1#4) =
    some 0xFFFEFDFCFBFAF9F808070604040302000F0E0D0B0B0A09078786858483828180#256 := by decide

/-- V-MEM-8: the operand is at 100FCH. -/
theorem test_vpadddYmm_mem :
    shows (run [0xC4#8, 0x01#8, 0x15#8, 0xFE#8, 0x64#8, 0xFE#8, 0xFC#8]
      (withValue 0x100FC 32 dA.toNat (withGpr 14#4 0x10000#64 (withGpr 15#4 0x20#64
        (base .mode64))))) (fun t => (t.readYmm 12#4, t.ip)) = some (dA, 0x1007#64) := by
  decide +kernel

/-! ### Witnesses: states and operands that meet the hypotheses of each obligation

Register forms, memory forms, both modes and the boundary values of each clause. -/

/-- `paddb mm1, mm2`, `paddw xmm1, [rbx]`, `vpaddd ymm1, ymm2, ymm3` and the longest encoding. -/
def iMmx : Instr := .paddbMmx ⟨[], none⟩ 1#3 (.reg 2#3)
def iSse : Instr := .paddwSse ⟨[.opSize], none⟩ 1#3 (.mem (.base 3#3 .none))
def iYmm : Instr := .vpadddYmm ⟨[], .two false, 2#4⟩ 1#3 (.reg 3#3)
def iLong : Instr := .paddbSse ⟨[.seg .cs, .addrSize, .opSize], some ⟨false, false, false, true⟩⟩ 0#3
  (.mem (.sib 2#2 1#3 0#3 (.disp32 0x12345678#32)))

theorem witness_DecodeUndoesEncode :
    iMmx.wf .mode32 false = true ∧ iSse.wf .mode32 false = true ∧ iYmm.wf .mode64 false = true ∧
      iLong.wf .mode64 false = true ∧
      Instr.wf .mode32 true (.paddbMmx ⟨[.addrSize], none⟩ 0#3 (.mem (.disp16 0x10#16))) = true := by
  decide

theorem witness_DecodedInstructionHoldsEveryBit :
    decode .mode64 false (encode iLong ++ [0x90#8]) = .instr iLong [0x90#8] ∧
      decode .mode32 false (encode iYmm) = .instr iYmm [] := by decide

/-- The shortest and the longest encoding (R116). -/
theorem witness_EncodingIsThreeToTwelveBytes :
    iMmx.wf .mode64 false = true ∧ (encode iMmx).length = 3 ∧
      iLong.wf .mode64 false = true ∧ (encode iLong).length = 12 := by decide

theorem witness_DecodeIgnoresLaterBytes :
    decode .mode32 false [0x0F#8, 0xFC#8, 0xCA#8] ≠ .truncated ∧
      decode .mode32 false [0xF0#8, 0x0F#8, 0xFC#8] ≠ .truncated ∧
      decode .mode32 false [0x90#8] ≠ .truncated ∧
      decode .mode32 false [0x0F#8, 0xFC#8] = .truncated := by decide

theorem witness_LastOpcodeByteSelectsWidth :
    decode .mode64 false [0x0F#8, 0xFC#8, 0xCA#8] = .instr iMmx [] ∧
      decode .mode64 false [0x66#8, 0x0F#8, 0xFD#8, 0x0B#8] = .instr iSse [] ∧
      decode .mode64 false [0xC5#8, 0xED#8, 0xFE#8, 0xCB#8] = .instr iYmm [] := by decide

theorem witness_Prefix66SelectsTheClass :
    decode .mode32 false [0x0F#8, 0xFC#8, 0xCA#8] = .instr iMmx [] := by decide

/-- Clause 1: LOCK with 66H in `Mode32`. Clause 2: F3H and REX before VEX, with `mmmmm = 00010b` and
`pp = 00b` of other rows, and in `Mode32` with `VEX.B = 1`. -/
theorem witness_LockAndPrefixedVexAreInvalid :
    (Prefix.distinct [.lock, .opSize] = true ∧ .lock ∈ [Prefix.lock, .opSize] ∧
      .repne ∉ [Prefix.lock, .opSize] ∧ .rep ∉ [Prefix.lock, .opSize] ∧
      decode .mode32 false [0xF0#8, 0x66#8, 0x0F#8, 0xFC#8, 0xCA#8] = .invalidOpcode) ∧
    (Prefix.distinct [.rep] = true ∧ .rep ∈ [Prefix.rep] ∧ field 0xC1#8 6 2 = 3#2 ∧
      field 0xC0#8 6 2 = 3#2 ∧
      decode .mode32 false [0xF3#8, 0xC4#8, 0xC1#8, 0x69#8] = .invalidOpcode ∧
      decode .mode32 false [0xF3#8, 0xC5#8, 0xC0#8] = .invalidOpcode ∧
      decode .mode64 false [0x41#8, 0xC4#8, 0x02#8, 0x00#8] = .invalidOpcode) := by decide

theorem witness_StrayPrefixesAreRefused :
    Prefix.distinct [.seg .ds, .seg .ds] = false ∧ Prefix.distinct [.seg .ds, .seg .es] = false ∧
      (Prefix.distinct [.repne, .lock] = true ∧ .repne ∈ [Prefix.repne, .lock]) ∧
      decode .mode64 false [0xF3#8, 0x48#8, 0x0F#8, 0xFE#8] = .reject .repeatString ∧
      decode .mode64 false [0x36#8, 0x26#8] = .reject .repeatedPrefix ∧
      decode .mode64 false [0xF2#8, 0xF0#8, 0x0F#8, 0xFD#8] = .reject .repeatString := by decide

theorem beforeVex_both : BeforeVex [.addrSize, .seg .fs] := ⟨by decide, by simp⟩

/-- Bytes 90H and 50H, PSUBB (`0F F8`), VPSHUFB (`C4 E2 69 00`), `pp = 00b` and `pp = 10b` (V-F23). -/
theorem witness_OtherOpcodesAreRefused :
    ((∀ p : Prefix, 0x90#8 ≠ p.byte) ∧ field 0x90#8 4 4 ≠ 4#4 ∧
      decode .mode64 false [0x66#8, 0x90#8] = .reject .outOfScope ∧
      decode .mode64 false [0x48#8, 0x50#8] = .reject .outOfScope ∧
      decode .mode32 false [0x48#8] = .reject .outOfScope) ∧
    (OtherOpcode 0xFB#8 ∧ OtherOpcode 0xFF#8 ∧ Prefix.distinct [.opSize] = true ∧
      decode .mode64 false [0x66#8, 0x41#8, 0x0F#8, 0xF8#8] = .reject .outOfScope) ∧
    (BeforeVex [.addrSize, .seg .fs] ∧ field 0xE2#8 6 2 = 3#2 ∧ field 0xE2#8 0 5 ≠ 1#5 ∧
      decode .mode64 false [0x67#8, 0x64#8, 0xC4#8, 0xE2#8, 0x69#8, 0x00#8] = .reject .outOfScope ∧
      field 0x68#8 0 2 ≠ 1#2 ∧
      decode .mode32 false [0xC4#8, 0xE1#8, 0x68#8, 0xFC#8] = .reject .outOfScope) ∧
    (field 0xEA#8 6 2 = 3#2 ∧ field 0xEA#8 0 2 ≠ 1#2 ∧
      decode .mode32 false [0xC5#8, 0xEA#8, 0xFC#8] = .reject .outOfScope) ∧
    (field ((vexBytes true 2#4 (.two false)).getD 1 0#8) 6 2 = 3#2 ∧
      decode .mode32 false [0xC5#8, 0xED#8, 0xFB#8] = .reject .outOfScope) := by
  refine ⟨⟨fun p => ?_, by decide⟩, by unfold OtherOpcode; decide, ⟨beforeVex_both, by decide⟩,
    by decide, by decide⟩
  cases p with
  | seg g => cases g <;> decide
  | _ => decide

/-- V-F19, V-F20's word, the least `vvvv` too large (only `C4` can write it), V-F21 in both classes. -/
theorem witness_Mode32RefusesItsOtherEncodings :
    (Prefix.distinct [.opSize] = true ∧ field 0x6D#8 6 2 ≠ 3#2 ∧
      decode .mode32 false [0x66#8, 0xC5#8, 0x6D#8] = .reject .lesOrLds ∧
      decode .mode32 true [0xC4#8, 0xBF#8] = .reject .lesOrLds) ∧
    (BeforeVex [.addrSize, .seg .fs] ∧
      field ((vexBytes false 3#4 (.three false false true false)).getD 1 0#8) 6 2 = 3#2 ∧
      decode .mode32 false [0xC4#8, 0xC1#8, 0x61#8, 0xFE#8] = .reject .vexRegisterInMode32 ∧
      field ((vexBytes false 8#4 (.three false false false false)).getD 1 0#8) 6 2 = 3#2 ∧
      decode .mode32 false [0xC4#8, 0xE1#8, 0x39#8, 0xFE#8] = .reject .vexRegisterInMode32) ∧
    (Prefix.distinct [.addrSize, .opSize] = true ∧
      decode .mode32 false [0x67#8, 0x66#8, 0x0F#8, 0xFC#8, 0xCA#8] = .reject .addr16NotAdmitted) ∧
    ((VexForm.two false).plain = true ∧
      decode .mode32 false [0x67#8, 0x64#8, 0xC5#8, 0xC1#8, 0xFC#8, 0xCB#8]
        = .reject .addr16NotAdmitted) :=
  ⟨by decide, ⟨beforeVex_both, by decide⟩, by decide, by decide⟩

theorem witness_Mode32NamesRegistersBelowEight :
    decode .mode32 false (encode iSse) = .instr iSse [] ∧
      decode .mode32 false (encode iYmm) = .instr iYmm [] ∧
      decode .mode32 false [0xC5#8, 0xC1#8, 0xFC#8, 0xFF#8] =
        .instr (.vpaddbXmm ⟨[], .two false, 7#4⟩ 7#3 (.reg 7#3)) [] := by decide

/-- Widths and operand widths of R130, and a first and a last lane (V-Y6). -/
theorem witness_PackedAddAddsEveryLane :
    32 ∈ [8, 16, 32] ∧ 256 ∈ [64, 128, 256] ∧
      lane 32 (packedAdd 32 dA dB) 0 = 0x83828180#32 ∧
      lane 32 (packedAdd 32 dA dB) 7 = 0xFFFEFDFC#32 := by decide

/-- Two pairs of operands that agree in the last byte lane alone. -/
theorem witness_NoLaneAffectsAnother :
    lane 8 0xFF00000000000001#64 7 = lane 8 0xFFFFFFFFFFFFFFFF#64 7 ∧
      lane 8 0x01000000000000FF#64 7 = lane 8 0x01AAAAAAAAAAAAFF#64 7 ∧ 7 < 64 / 8 := by decide

/-- A launched machine is ready for every class. -/
theorem base_ready (m : Mode) (c : EncClass) : Ready c (base m) := by
  cases m <;> cases c <;> exact (checks_eq_none_iff _ _).1 (by decide)

theorem base_mode (m : Mode) : (base m).mode = .ok m := by cases m <;> decide

/-- 32 bytes of FFH at 2000H, EBX pointing at them. -/
def mem32 (m : Mode) : State :=
  withGpr 3#4 0x2000#64 (withValue 0x2000 32 (BitVec.allOnes 256).toNat (base m))

theorem mem32_mode (m : Mode) : (mem32 m).mode = .ok m := by cases m <;> decide

theorem mem32_ready (m : Mode) (c : EncClass) : Ready c (mem32 m) := by
  cases m <;> cases c <;> exact (checks_eq_none_iff _ _).1 (by decide)

/-- Where `[ebx]` lies in `mem32`. -/
def atEbx : Place := ⟨.ds, 0x2000#64, 0x2000#64⟩

theorem mem32_operand (m : Mode) (c : EncClass) :
    MemOperand (mem32 m) m c atEbx (operandBytes c) (BitVec.allOnes _) := by
  refine ⟨by cases m <;> cases c <;> decide, fun _ => by decide, fun _ _ => by decide, ?_⟩
  rw [← Memory.readLE_eq_ok_iff]
  cases m <;> cases c <;> decide +kernel

/-- A register operand in `Mode32` and a memory operand in `Mode64`, for PADDB, PADDW and PADDD. -/
theorem witness_MmxFormsAddEveryLane :
    ((base .mode32).mode = .ok .mode32 ∧ Ready .mmx64 (base .mode32) ∧
      MmxOperand (base .mode32) .mode32 ⟨[], none⟩ (.reg 2#3) 0#64) ∧
    ((mem32 .mode64).mode = .ok .mode64 ∧ Ready .mmx64 (mem32 .mode64) ∧
      MmxOperand (mem32 .mode64) .mode64 ⟨[], none⟩ (.mem (.base 3#3 .none)) (BitVec.allOnes 64)) :=
  ⟨⟨base_mode _, base_ready _ _, by unfold MmxOperand; decide⟩,
    ⟨mem32_mode _, mem32_ready _ _, mem32_operand .mode64 .mmx64⟩⟩

theorem witness_SseFormsAddAndKeepTheUpperHalf :
    ((base .mode64).mode = .ok .mode64 ∧ Ready .sse128 (base .mode64) ∧
      SseOperand (base .mode64) .mode64 ⟨[.opSize], some ⟨false, true, false, true⟩⟩ (.reg 7#3)
        0#128) ∧
    ((mem32 .mode32).mode = .ok .mode32 ∧ Ready .sse128 (mem32 .mode32) ∧
      SseOperand (mem32 .mode32) .mode32 ⟨[.opSize], none⟩ (.mem (.base 3#3 .none))
        (BitVec.allOnes 128)) :=
  ⟨⟨base_mode _, base_ready _ _, by unfold SseOperand; decide⟩,
    ⟨mem32_mode _, mem32_ready _ _, mem32_operand .mode32 .sse128⟩⟩

theorem witness_Vex128FormsAddAndZeroTheUpperHalf :
    ((base .mode32).mode = .ok .mode32 ∧ Ready .vex128 (base .mode32) ∧
      XmmOperand (base .mode32) .mode32 ⟨[], .two false, 2#4⟩ (.reg 3#3) 0#128) ∧
    ((mem32 .mode64).mode = .ok .mode64 ∧ Ready .vex128 (mem32 .mode64) ∧
      XmmOperand (mem32 .mode64) .mode64 ⟨[], .two true, 15#4⟩ (.mem (.base 3#3 .none))
        (BitVec.allOnes 128)) :=
  ⟨⟨base_mode _, base_ready _ _, by unfold XmmOperand; decide⟩,
    ⟨mem32_mode _, mem32_ready _ _, mem32_operand .mode64 .vex128⟩⟩

theorem witness_Vex256FormsAddAllLanes :
    ((base .mode32).mode = .ok .mode32 ∧ Ready .vex256 (base .mode32) ∧
      YmmOperand (base .mode32) .mode32 ⟨[], .two false, 2#4⟩ (.reg 3#3) 0#256) ∧
    ((mem32 .mode64).mode = .ok .mode64 ∧ Ready .vex256 (mem32 .mode64) ∧
      YmmOperand (mem32 .mode64) .mode64 ⟨[], .two true, 15#4⟩ (.mem (.base 3#3 .none))
        (BitVec.allOnes 256)) :=
  ⟨⟨base_mode _, base_ready _ _, by unfold YmmOperand; decide⟩,
    ⟨mem32_mode _, mem32_ready _ _, mem32_operand .mode64 .vex256⟩⟩

/-- What an instruction answers, when it answers a next state. -/
def isNext (o : Result) : Bool :=
  match o with
  | .next _ => true
  | _ => false

theorem exists_of_isNext {o : Result} (h : isNext o = true) : ∃ t, o = .next t := by
  cases o with
  | next t => exact ⟨t, rfl⟩
  | fault f => cases h
  | refused r => cases h

/-- One form of each class with both sources the same register. -/
theorem witness_SameSourceTwiceDoublesEveryLane :
    ∀ i ∈ [Instr.paddbMmx ⟨[], none⟩ 1#3 (.reg 1#3), .padddSse ⟨[.opSize], none⟩ 0#3 (.reg 0#3),
        .vpaddwXmm ⟨[], .two false, 2#4⟩ 4#3 (.reg 2#3),
        .vpaddbYmm ⟨[], .two false, 7#4⟩ 7#3 (.reg 7#3)],
      SameSourceTwice i ∧ ∃ t, exec i (base .mode32) = .next t := by
  intro i hi
  simp only [List.mem_cons, List.not_mem_nil, or_false] at hi
  rcases hi with rfl | rfl | rfl | rfl
  · exact ⟨rfl, exists_of_isNext (by decide)⟩
  · exact ⟨⟨_, rfl, rfl⟩, exists_of_isNext (by decide)⟩
  · exact ⟨⟨_, rfl, rfl⟩, exists_of_isNext (by decide)⟩
  · exact ⟨⟨_, rfl, rfl⟩, exists_of_isNext (by decide)⟩

/-- `paddb xmm9, xmm10` and `vpaddb xmm9, xmm9, xmm10`, and the other two widths. -/
theorem witness_LegacyAndVexDifferInTheUpperHalfOnly :
    let e : LegacyEnc := ⟨[.opSize], some ⟨false, true, false, true⟩⟩
    let v : VexEnc := ⟨[], .three true false true false, 9#4⟩
    vexR v = rexR e ∧ vexB v = rexB e ∧ v.vvvv = extend3 (rexR e) 1#3 ∧
      isNext (exec (.paddbSse e 1#3 (.reg 2#3)) (base .mode64)) = true ∧
      isNext (exec (.vpaddbXmm v 1#3 (.reg 2#3)) (base .mode64)) = true ∧
      isNext (exec (.paddwSse e 1#3 (.reg 2#3)) (base .mode64)) = true ∧
      isNext (exec (.vpaddwXmm v 1#3 (.reg 2#3)) (base .mode64)) = true ∧
      isNext (exec (.padddSse e 1#3 (.reg 2#3)) (base .mode64)) = true ∧
      isNext (exec (.vpadddXmm v 1#3 (.reg 2#3)) (base .mode64)) = true := by decide

/-- The third clause: any two REX bytes with a register operand, two that share X and B with memory. -/
theorem witness_IgnoredBitsChangeNothing :
    (∀ f, RegMem.reg 2#3 = .mem f → (⟨false, false, false, false⟩ : Rex).x = (⟨true, true, true, true⟩ : Rex).x ∧
      (⟨false, false, false, false⟩ : Rex).b = (⟨true, true, true, true⟩ : Rex).b) ∧
    (∀ f, RegMem.mem (.base 3#3 .none) = .mem f →
      (⟨false, false, true, true⟩ : Rex).x = (⟨true, true, true, true⟩ : Rex).x ∧
      (⟨false, false, true, true⟩ : Rex).b = (⟨true, true, true, true⟩ : Rex).b) := by
  refine ⟨?_, fun _ _ => ⟨rfl, rfl⟩⟩
  intro f hf
  cases hf

theorem witness_TwoByteVexAbbreviatesThreeByte :
    (base .mode64).mode = .ok .mode64 ∧
      ∃ t, exec (.vpadddYmm ⟨[.addrSize], .two true, 15#4⟩ 7#3 (.reg 7#3)) (base .mode64) = .next t :=
  ⟨base_mode _, exists_of_isNext (by decide)⟩

/-- Next states of register and memory forms, as the frames and the noninterference statements ask. -/
theorem witness_MmxFormsFrame :
    iMmx.cls = .mmx64 ∧ (∃ t, exec iMmx (base .mode32) = .next t) ∧
      ∃ t, exec (.padddMmx ⟨[], none⟩ 7#3 (.mem (.base 3#3 .none))) (mem32 .mode64) = .next t :=
  ⟨rfl, exists_of_isNext (by decide), exists_of_isNext (by decide)⟩

theorem witness_VectorFormsFrame :
    iSse.cls ≠ .mmx64 ∧ iYmm.cls ≠ .mmx64 ∧ (∃ t, exec iSse (mem32 .mode32) = .next t) ∧
      ∃ t, exec iYmm (base .mode64) = .next t :=
  ⟨by decide, by decide, exists_of_isNext (by decide), exists_of_isNext (by decide)⟩

theorem witness_NoFlagIsWritten : ∃ t, exec iYmm (base .mode64) = .next t :=
  exists_of_isNext (by decide)

/-- EFLAGS with every bit but 17 and 18 set, against those of the launch. -/
theorem witness_FlagsDecideNoOutcome :
    bitAt 0xFFF9FFFF#32 17 = bitAt (base .mode64).eflags 17 ∧
      bitAt 0xFFF9FFFF#32 18 = bitAt (base .mode64).eflags 18 := by decide

theorem witness_PrivilegeLevelChangesNoResult :
    bitAt (base .mode64).cr0 18 = false ∧ ∃ t, exec iSse (mem32 .mode64) = .next t :=
  ⟨by decide, exists_of_isNext (by decide)⟩

/-- Each #UD condition of R183 to R186 alone (V-F1, V-F3 to V-F5, V-F12 to V-F14), #NM (V-F11) and #MF. -/
def off (s : State) : State := { s with cpu := ⟨false, false, false, false, false⟩ }

theorem witness_ChecksFaultInOrder_invalid :
    InvalidHere .mmx64 (off (base .mode64)) ∧ InvalidHere .sse128 (off (base .mode64)) ∧
      InvalidHere .vex128 (off (base .mode64)) ∧ InvalidHere .vex256 (off (base .mode64)) ∧
      InvalidHere .vex256 { base .mode64 with cpu := ⟨true, true, true, false, false⟩ } ∧
      InvalidHere .mmx64 { base .mode64 with cr0 := 0x80000005#32 } ∧
      InvalidHere .sse128 { base .mode64 with cr4 := 0x40000#32 } ∧
      InvalidHere .vex128 { base .mode64 with cr4 := 0x200#32 } ∧
      InvalidHere .vex256 { base .mode64 with xcr0 := 3#64 } :=
  ⟨.inl rfl, .inl rfl, .inl rfl, .inl rfl, .inr (.inl rfl), .inr (by decide),
    .inr (.inr (by decide)), .inr (.inl (by decide)), .inr (.inr (.inr (by decide)))⟩

/-- CR0.TS set, for #NM, and ES set in the x87 status word, for #MF. -/
theorem witness_ChecksFaultInOrder_valid :
    (¬InvalidHere .mmx64 { base .mode64 with cr0 := 0x80000009#32 } ∧
      stopOf (exec iMmx { base .mode64 with cr0 := 0x80000009#32 }) = some (.fault .deviceNotAvailable)) ∧
    (¬InvalidHere .mmx64 { base .mode64 with x87Status := 0x80#16 } ∧
      bitAt (base .mode64).cr0 3 = false ∧ iMmx.cls = .mmx64 ∧
      stopOf (exec iMmx { base .mode64 with x87Status := 0x80#16 }) = some (.fault .x87FloatingPoint)) := by
  refine ⟨⟨fun h => ?_, by decide⟩, ⟨fun h => ?_, by decide, rfl, by decide⟩⟩ <;>
    exact absurd (show _ ∨ _ from h) (by decide)

theorem witness_VexL1NeedsAvx2 :
    let e : VexEnc := ⟨[], .two false, 2#4⟩
    (base .mode32).mode = .ok .mode32 ∧ e.wf .mode32 (base .mode32).cpu.admit16 = true ∧
      (RegMem.reg 3#3).wf (addr16 .mode32 e.prefixes) = true ∧
      stopOf (exec iYmm { base .mode32 with cpu := ⟨true, true, true, false, false⟩ })
        = some (.fault .invalidOpcode) ∧
      (base .mode32).cpu.hasAvx2 = true ∧ Ready .vex256 (base .mode32) ∧
      YmmOperand (base .mode32) .mode32 e (.reg 3#3) 0#256 :=
  ⟨by decide, by decide, by decide, by decide, by decide, base_ready _ _, by unfold YmmOperand; decide⟩

/-- `[rbx]` at the first non-canonical address (V-F9), `[rsp]` there, and in `Mode32` `[ebx]` whose
last byte is past a limit of 2006H. -/
theorem witness_IllegalAddressFaults :
    let s := withGpr 3#4 0x00007FFFFFFFFFF9#64 (withGpr 4#4 0xFFFF7FFFFFFFFFFF#64 (base .mode64))
    let i : Instr := .paddbMmx ⟨[], none⟩ 0#3 (.mem (.base 3#3 .none))
    let j : Instr := .vpaddbXmm ⟨[], .two false, 0#4⟩ 0#3 (.mem (.sib 0#2 4#3 4#3 .none))
    let u : State := { mem32 .mode32 with segs := Vector.replicate 6 ⟨0#64, 0x2006#32⟩ }
    (s.legal .mode64 (operandPlace s .mode64 (.base 3#3 .none) i) 8 = false ∧
      stopOf (exec i s) = some (.fault .generalProtection)) ∧
    (s.legal .mode64 (operandPlace s .mode64 (.sib 0#2 4#3 4#3 .none) j) 16 = false ∧
      (operandPlace s .mode64 (.sib 0#2 4#3 4#3 .none) j).seg = .ss ∧
      stopOf (exec j s) = some (.fault .stackSegment)) ∧
    (u.mode = .ok .mode32 ∧ u.legal .mode32 (operandPlace u .mode32 (.base 3#3 .none) i) 8 = false ∧
      stopOf (exec i u) = some (.fault .generalProtection)) := by decide

/-- V-F6. -/
theorem witness_MisalignedSseOperandFaults :
    let s := withGpr 3#4 0x500008#64 (base .mode64)
    s.mode = .ok .mode64 ∧ checks .sse128 s = none ∧ iSse.cls = .sse128 ∧
      s.legal .mode64 (operandPlace s .mode64 (.base 3#3 .none) iSse) 16 = true ∧
      (operandPlace s .mode64 (.base 3#3 .none) iSse).lin.toNat % 16 ≠ 0 ∧
      stopOf (exec iSse s) = some (.fault .generalProtection) := by decide

/-- V-F10: the first byte absent, and the last byte alone. -/
theorem witness_AbsentOperandByteFaults :
    let s := withGpr 3#4 0x3000#64 (base .mode64)
    let u := withGpr 3#4 0x2019#64 (mem32 .mode64)
    let i : Instr := .paddbMmx ⟨[], none⟩ 0#3 (.mem (.base 3#3 .none))
    s.legal .mode64 (operandPlace s .mode64 (.base 3#3 .none) i) 8 = true ∧
      s.alignmentChecking = false ∧
      stopOf (exec i s) = some (.fault (.pageFault ⟨false, false, false, false, false⟩ 0x3000#64)) ∧
      (u.mem.read 0x2020 = none ∧ ∀ k < 7, (u.mem.read (0x2019 + k)).isSome = true) ∧
      stopOf (exec i u) = some (.fault (.pageFault ⟨false, false, false, false, false⟩ 0x2020#64)) := by decide

/-- Alignment checking on at privilege level 3 (R55). -/
def checked (s : State) : State :=
  { s with cr0 := s.cr0 ||| 0x40000#32, eflags := s.eflags ||| 0x40000#32, csSelector := 0x2B#16 }

/-- A misaligned operand whose bytes are held, and one whose last byte is absent. -/
theorem witness_CheckedMmxOperandFaults :
    let s := checked (withGpr 3#4 0x2003#64 (mem32 .mode64))
    let u := checked (withGpr 3#4 0x2019#64 (mem32 .mode64))
    let i : Instr := .paddbMmx ⟨[], none⟩ 0#3 (.mem (.base 3#3 .none))
    s.mode = .ok .mode64 ∧ checks .mmx64 s = none ∧
      s.legal .mode64 (operandPlace s .mode64 (.base 3#3 .none) i) 8 = true ∧
      CheckedMisaligned .mmx64 s (operandPlace s .mode64 (.base 3#3 .none) i).lin ∧
      (∀ k < 8, (s.mem.read (0x2003 + k)).isSome = true) ∧
      stopOf (exec i s) = some (.fault .alignmentCheck) ∧
      CheckedMisaligned .mmx64 u (operandPlace u .mode64 (.base 3#3 .none) i).lin ∧
      (u.mem.read 0x2020 = none ∧ ∀ k < 7, (u.mem.read (0x2019 + k)).isSome = true) := by
  unfold CheckedMisaligned
  decide

/-- Both sides of the equivalence hold: V-MEM-1's bytes. -/
theorem witness_MemReadIsLittleEndian :
    (mem32 .mode64).memRead .mode64 .mmx64 atEbx 8 = .ok (BitVec.allOnes 64) ∧
      ((base .mode64).placeBytes 0x2000
        [0x01#8, 0x00#8, 0xFF#8, 0xFF#8, 0x00#8, 0x80#8, 0xFF#8, 0x7F#8]).memRead .mode64 .mmx64
          atEbx 8 = .ok 0x7FFF8000FFFF0001#64 := by decide

/-- The last canonical operand of the lower half, the first of the upper half, the top of each
address space, and one byte further. -/
theorem witness_LegalAddressIsCanonicalOrWithinLimit :
    let s := base .mode64
    0 < 8 ∧ 8 ≤ 32 ∧
      s.legal .mode64 ⟨.ds, 0#64, 0x00007FFFFFFFFFF8#64⟩ 8 = true ∧
      s.legal .mode64 ⟨.ds, 0#64, 0x00007FFFFFFFFFF9#64⟩ 8 = false ∧
      s.legal .mode64 ⟨.ds, 0#64, 0xFFFF800000000000#64⟩ 32 = true ∧
      s.legal .mode64 ⟨.ds, 0#64, 0xFFFF7FFFFFFFFFFF#64⟩ 1 = false ∧
      s.legal .mode64 ⟨.ds, 0#64, 0xFFFFFFFFFFFFFFF8#64⟩ 8 = true ∧
      s.legal .mode64 ⟨.ds, 0#64, 0xFFFFFFFFFFFFFFF9#64⟩ 8 = false ∧
      s.legal .mode32 ⟨.ds, 0xFFFFFFF8#64, 0xFFFFFFF8#64⟩ 8 = true ∧
      s.legal .mode32 ⟨.ds, 0xFFFFFFF9#64, 0xFFFFFFF9#64⟩ 8 = false := by decide

/-- V-MEM-5's, V-D10's and V-D17's places; the last has a displacement of -1 and an override. -/
theorem witness_BaseDisplacementAddress :
    ((withGpr 3#4 0x500000#64 (base .mode64)).place .mode64 [.opSize] false false 6
      (.base 3#3 (.disp8 0x10#8))).ea = 0x500010#64 ∧
    ((base .mode32).place .mode32 [] false false 7 (.disp32 0x1000#32)).ea = 0x1000#64 ∧
    ((base .mode32).place .mode32 [.seg .gs, .opSize] false false 6
      (.base 7#3 (.disp8 0xFF#8))).ea = 0xFFFFFFFF#64 := by decide

/-- V-MEM-6, and the same with 67H. -/
theorem witness_RipRelativeAddress :
    let s := { base .mode64 with ip := 0x400FF8#64 }
    (s.place .mode64 [.opSize] false false 8 (.disp32 0x100#32)).ea = 0x401100#64 ∧
      ({ s with ip := 0xFFFFFFFFF#64 }.place .mode64 [.addrSize] false false 8
        (.disp32 0#32)).ea = 7#64 := by decide

/-- V-MEM-8 and V-D9: with an index and without. -/
theorem witness_ScaledIndexAddress :
    ((withGpr 14#4 0x10000#64 (withGpr 15#4 0x20#64 (base .mode64))).place .mode64 [] true true 7
      (.sib 3#2 7#3 6#3 (.disp8 0xFC#8))).ea = 0x100FC#64 ∧
    ((withGpr 4#4 1#64 (base .mode64)).place .mode64 [] false false 8
      (.sibNoBase 0#2 4#3 0x1000#32)).ea = 0x1000#64 := by decide

/-- V-F21: `[bx+si]`, modulo 2^16, and `[disp16]`. -/
theorem witness_SixteenBitAddress :
    let s := withGpr 3#4 0x1FFFF#64 (withGpr 6#4 0x20003#64 (base .mode32))
    .addrSize ∈ [Prefix.addrSize] ∧
      (s.place .mode32 [.addrSize] false false 4 (.base16 0#3 .none)).ea = 2#64 ∧
      (s.place .mode32 [.addrSize] false false 6 (.disp16 0xFFFF#16)).ea = 0xFFFF#64 := by decide

/-- Third clause: an override that counts and one that does not (V-D16, V-D18). Fourth: none. -/
theorem witness_SegmentChoice :
    (Prefix.distinct [.seg .fs, .opSize] = true ∧ .seg .fs ∈ [Prefix.seg .fs, .opSize] ∧
      ((base .mode64).place .mode64 [.seg .fs, .opSize] false false 5 (.base 0#3 .none)).seg = .fs) ∧
    (((base .mode64).place .mode64 [.seg .cs] false false 5 (.base 0#3 .none)).seg = .ds ∧
      ((base .mode32).place .mode32 [.seg .cs] false false 5 (.base 0#3 .none)).seg = .cs) ∧
    ((∀ g, Prefix.seg g ∉ [Prefix.opSize]) ∧
      ((base .mode32).place .mode32 [.opSize] false false 5 (.base 5#3 (.disp8 0#8))).seg = .ss) := by
  refine ⟨by decide, by decide, ?_, by decide⟩
  intro g h
  simp at h

/-- A text of one instruction, in each mode. -/
def text (m : Mode) : State := (base m).placeBytes 0x1000 (encode iMmx)

theorem witness_StepRunsTheDecodedInstruction (m : Mode) :
    (text m).mode = .ok m ∧ decode m (text m).cpu.admit16 (encode iMmx) = .instr iMmx [] ∧
      TextAt (text m) m (encode iMmx) ∧ (text m).ipCanonical m 0 = true ∧
      (text m).ipCanonical m iMmx.length = true := by
  unfold TextAt
  cases m <;> decide

/-- An instruction begun: its next byte past a limit of 1001H, in a text of one byte at the top of
the `Mode32` address space, and absent. -/
theorem witness_StepStopsOnOtherBytes_begun :
    let s := (base .mode32).placeBytes 0x1000 [0x0F#8, 0xFC#8]
    let u : State := { s with segs := Vector.replicate 6 ⟨0#64, 0x1001#32⟩ }
    let v := ({ base .mode32 with ip := 0xFFFFFFFF#64 }).placeBytes 0xFFFFFFFF [0x0F#8]
    (TextAt u .mode32 [0x0F#8, 0xFC#8] ∧
      decode .mode32 u.cpu.admit16 [0x0F#8, 0xFC#8] = .truncated ∧
      codeAddress .mode32 (u.codeStart .mode32 + 2) = true ∧ u.pastCodeLimit .mode32 2 = true ∧
      stopOf (step u) = some (.fault .generalProtection)) ∧
    (TextAt v .mode32 [0x0F#8] ∧ decode .mode32 v.cpu.admit16 [0x0F#8] = .truncated ∧
      codeAddress .mode32 (v.codeStart .mode32 + 1) = false ∧
      stopOf (step v) = some (.refused .codeCrossesTop)) ∧
    (s.pastCodeLimit .mode32 2 = false ∧ s.mem.read (s.codeStart .mode32 + 2) = none ∧
      stopOf (step s) = some (.refused .fetchOutsideText)) := by
  unfold TextAt
  decide

/-- A complete instruction in front of the lower half's end and of the top of the address space, the
second with CR0.TS set: the fetch's #GP(0) is first. -/
theorem witness_StepStopsOnOtherBytes_successor :
    let s := ({ base .mode64 with ip := 0x7FFFFFFFFFFD#64 }).placeBytes 0x7FFFFFFFFFFD (encode iMmx)
    let u := ({ base .mode64 with ip := 0xFFFFFFFFFFFFFFFD#64, cr0 := 0x80000009#32 }).placeBytes
      0xFFFFFFFFFFFFFFFD (encode iMmx)
    (s.mode = .ok .mode64 ∧ s.ipCanonical .mode64 0 = true ∧ TextAt s .mode64 (encode iMmx) ∧
      decode .mode64 s.cpu.admit16 (encode iMmx) = .instr iMmx [] ∧
      s.ipCanonical .mode64 iMmx.length = false ∧
      stopOf (step s) = some (.fault .generalProtection)) ∧
    (u.mode = .ok .mode64 ∧ u.ipCanonical .mode64 0 = true ∧ TextAt u .mode64 (encode iMmx) ∧
      u.ipCanonical .mode64 iMmx.length = false ∧
      stopOf (step u) = some (.fault .generalProtection)) := by
  unfold TextAt
  decide

/-- LOCK, an opcode out of scope, an absent first byte, a non-canonical `ip`. -/
theorem witness_StepStopsOnOtherBytes :
    let s := (base .mode32).placeBytes 0x1000 [0xF0#8, 0x0F#8, 0xFC#8]
    let u := (base .mode32).placeBytes 0x1000 [0x90#8]
    (s.mode = .ok .mode32 ∧ TextAt s .mode32 [0xF0#8, 0x0F#8, 0xFC#8] ∧
      decode .mode32 s.cpu.admit16 [0xF0#8, 0x0F#8, 0xFC#8] = .invalidOpcode ∧
      stopOf (step s) = some (.fault .invalidOpcode)) ∧
    (TextAt u .mode32 [0x90#8] ∧ decode .mode32 u.cpu.admit16 [0x90#8] = .reject .outOfScope ∧
      stopOf (step u) = some (.refused (.notAnInstruction .outOfScope))) ∧
    ((base .mode64).ipCanonical .mode64 0 = true ∧
      codeAddress .mode64 ((base .mode64).codeStart .mode64) = true ∧
      (base .mode64).pastCodeLimit .mode64 0 = false ∧
      (base .mode64).mem.read ((base .mode64).codeStart .mode64) = none ∧
      stopOf (step (base .mode64)) = some (.refused .fetchOutsideText)) ∧
    ({ base .mode64 with ip := 0x800000000000#64 }.mode = .ok .mode64 ∧
      ¬CanonicalBits 0x800000000000#64 ∧
      stopOf (step { base .mode64 with ip := 0x800000000000#64 }) = some (.fault .generalProtection)) := by
  unfold TextAt CanonicalBits
  refine ⟨by decide, by decide, by decide, by decide, ?_, by decide⟩
  intro h
  exact absurd (h 47 (by decide) (by decide)) (by decide)

/-- Each mode out of scope: system-management, real-address after reset, virtual-8086, a 16-bit code segment, and bits
that name no mode: a launch into `Mode64` with LME clear. -/
theorem witness_ModesOutOfScopeAreRefused :
    State.reset.mode = .error .realAddress ∧
      ({ base .mode32 with eflags := 0x20002#32 }).mode = .error .virtual8086 ∧
      ({ base .mode32 with csD := false }).mode = .error .code16 ∧
      ({ base .mode64 with smm := true }).mode = .error .systemManagement ∧
      stopOf (step { text .mode64 with smm := true })
        = some (.refused (.modeOutOfScope .systemManagement)) ∧
      ({ base .mode64 with efer := 0x400#64 }).mode = .error .inconsistent := by decide

theorem witness_StepAdvancesPastOneInstruction :
    (∃ t, step (text .mode64) = .next t) ∧
      ∃ t, step (({ base .mode32 with ip := 0xFFFFFFFD#64 }).placeBytes 0xFFFFFFFD (encode iMmx))
        = .next t :=
  ⟨exists_of_isNext (by decide), exists_of_isNext (by decide)⟩

theorem witness_StepKeepsTheSurroundings : ∃ t, step (text .mode32) = .next t :=
  exists_of_isNext (by decide)

theorem witness_StepKeepsTheInvariant :
    Inv (text .mode64) ∧ ∃ t, step (text .mode64) = .next t :=
  ⟨⟨Memory.writeBytes_wf _ _ _ reset_mem_wf, by
    unfold IpInRange; rw [show (text .mode64).mode = .ok .mode64 by decide]; decide⟩,
    exists_of_isNext (by decide)⟩

/-- R35, after INIT: XMM kept, the upper half from outside, CD and NW kept (here clear), ip set. -/
theorem test_init :
    let t := ((base .mode64).writeYmm 2#4 dA |>.writeMm 1#3 7#64).init
      (Vector.replicate 16 5#128) 3#64
    let u := ({ base .mode64 with cr0 := 0x8000000B#32 }).init (Vector.replicate 16 5#128) 3#64
    t.readMm 1#3 = 7#64 ∧ t.readXmm 2#4 = field dA 0 128 ∧ field (t.readYmm 2#4) 128 128 = 5#128 ∧
      t.ip = 0xFFF0#64 ∧ t.cr0 = 0x60000010#32 ∧ u.cr0 = 0x10#32 := by decide

theorem witness_LaunchMakesEveryClassReady :
    State.reset.cpu.hasMmx = true ∧ State.reset.cpu.hasSse2 = true ∧
      State.reset.cpu.hasAvx = true ∧ State.reset.cpu.hasAvx2 = true ∧
      bitAt State.reset.x87Status 7 = false := by decide

end Sys2Proof.Tests
end

section
/-! What the decoder answers comes from the encoder's bytes: one inversion lemma per stage of
`decode` (30_encoding.md R115), each saying which bytes the stage took and which guards it passed. -/

namespace Sys2Proof

open Claims

/-! ### The rows of R100, written and judged by class -/

theorem encode_mkLegacy (w : Width) (e : LegacyEnc) (reg : BitVec 3) (rm : RegMem) :
    encode (mkLegacy w e reg rm) = encodeLegacy w e reg rm := by
  unfold mkLegacy
  split <;> cases w <;> rfl

theorem encode_mkVex (l : Bool) (w : Width) (e : VexEnc) (reg : BitVec 3) (rm : RegMem) :
    encode (mkVex l w e reg rm) = encodeVex l w e reg rm := by
  cases l <;> cases w <;> rfl

/-- 66H among the prefixes is what R83 asks of the row chosen. -/
theorem wf_mkLegacy (m : Mode) (a16 : Bool) (w : Width) (e : LegacyEnc) (reg : BitVec 3)
    (rm : RegMem) : (mkLegacy w e reg rm).wf m a16 =
      legacyWf m a16 (e.prefixes.contains .opSize) e rm := by
  unfold mkLegacy
  split
  · next h => rw [h]; cases w <;> rfl
  · next h => rw [Bool.eq_false_iff.2 h]; cases w <;> rfl

theorem wf_mkVex (m : Mode) (a16 l : Bool) (w : Width) (e : VexEnc) (reg : BitVec 3)
    (rm : RegMem) : (mkVex l w e reg rm).wf m a16 = vexWf m a16 e rm := by
  cases l <;> cases w <;> rfl

/-! ### The stages of the decoder -/

/-- The REX byte taken, if any, and what is left are the bytes given. -/
theorem takeRex_bytes (m : Mode) (bs : List Byte) :
    rexBytes (takeRex m bs).1 ++ (takeRex m bs).2 = bs := by
  unfold takeRex
  split
  · rfl
  · split
    · next r hr => simp [rexBytes, Rex.byte_of_ofByte? hr]
    · rfl

/-- REX is taken in `Mode64` only (R104). -/
theorem takeRex_mode (m : Mode) (bs : List Byte) :
    m = .mode64 ∨ (takeRex m bs).1 = none := by
  cases m with
  | mode64 => exact .inl rfl
  | mode32 => cases bs <;> exact .inr rfl

/-- R115 step 5. -/
theorem decodeOperands_eq_instr {m : Mode} {a16 : Bool} {ps : List Prefix}
    {mk : BitVec 3 → RegMem → Instr} {bs rest : List Byte} {i : Instr}
    (h : decodeOperands m a16 ps mk bs = .instr i rest) :
    ∃ reg rm, i = mk reg rm ∧ bs = rm.bytes reg ++ rest ∧ rm.wf (addr16 m ps) = true ∧
      addr16Admitted m a16 ps = true := by
  unfold decodeOperands at h
  split at h
  · next ha =>
    split at h
    · next reg rm t ht =>
      cases h
      obtain ⟨hwf, hbs⟩ := parseModRM_eq ht
      exact ⟨reg, rm, rfl, hbs, hwf, ha⟩
    · cases h
  · cases h

/-- The checks of R117 and R118 leave only admitted prefixes. -/
theorem admitted_of_not_contains {ps : List Prefix}
    (hrep : (ps.contains .repne || ps.contains .rep) ≠ true) (hlock : ps.contains .lock ≠ true) :
    Prefix.admitted ps = true := by
  obtain ⟨hrepne, hrep⟩ : Prefix.repne ∉ ps ∧ Prefix.rep ∉ ps := by simpa using hrep
  have hlock : Prefix.lock ∉ ps := by simpa using hlock
  simp only [Prefix.admitted, List.all_eq_true, Bool.and_eq_true, bne_iff_ne]
  exact fun p hp => ⟨⟨ne_of_mem_of_not_mem hp hlock, ne_of_mem_of_not_mem hp hrepne⟩,
    ne_of_mem_of_not_mem hp hrep⟩

/-- R115 step 3 after `0F`. -/
theorem decodeLegacy_eq_instr {m : Mode} {a16 : Bool} {ps : List Prefix} {rex : Option Rex}
    {bs rest : List Byte} {i : Instr} (hd : Prefix.distinct ps = true)
    (hrex : m = .mode64 ∨ rex = none) (h : decodeLegacy m a16 ps rex bs = .instr i rest) :
    i.wf m a16 = true ∧
      ps.map Prefix.byte ++ rexBytes rex ++ 0x0F#8 :: bs = encode i ++ rest := by
  unfold decodeLegacy at h
  split at h
  · cases h
  · next op t =>
    split at h
    · cases h
    · next w hw =>
      split_ifs at h with hrep hlock
      obtain ⟨reg, rm, rfl, rfl, hrm, ha⟩ := decodeOperands_eq_instr h
      have hadm := admitted_of_not_contains hrep hlock
      have hw := Width.opcode_of_ofOpcode? hw
      constructor
      · simp [wf_mkLegacy, legacyWf, LegacyEnc.wf, hd, hadm, hrex, ha, hrm]
      · simp [encode_mkLegacy, encodeLegacy, hw]

/-- R115 steps 3 to 5 from the opcode byte after VEX on. -/
theorem decodeVexOpcode_eq_instr {m : Mode} {a16 : Bool} {ps : List Prefix} {v : VexFields}
    {bs rest : List Byte} {i : Instr} (h : decodeVexOpcode m a16 ps v bs = .instr i rest) :
    ∃ w reg rm, i = mkVex v.l w ⟨ps, v.form, v.vvvv⟩ reg rm ∧
      bs = w.opcode :: rm.bytes reg ++ rest ∧ rm.wf (addr16 m ps) = true ∧
      vexRegistersOk m v = true ∧ addr16Admitted m a16 ps = true := by
  unfold decodeVexOpcode at h
  split at h
  · cases h
  · next op t =>
    split at h
    · cases h
    · next w hw =>
      split_ifs at h with hregs
      obtain ⟨reg, rm, rfl, rfl, hrm, ha⟩ := decodeOperands_eq_instr h
      have hw := Width.opcode_of_ofOpcode? hw
      exact ⟨w, reg, rm, rfl, by simp [hw], hrm, hregs, ha⟩

/-- R115 step 3 from the byte C4H or C5H on. -/
theorem decodeVex_eq_instr {m : Mode} {a16 : Bool} {ps : List Prefix} {rex : Option Rex} {b : Byte}
    {bs rest : List Byte} {i : Instr} (hd : Prefix.distinct ps = true)
    (hb : b = 0xC4#8 ∨ b = 0xC5#8) (h : decodeVex m a16 ps rex b bs = .instr i rest) :
    i.wf m a16 = true ∧ ps.map Prefix.byte ++ rexBytes rex ++ b :: bs = encode i ++ rest := by
  unfold decodeVex at h
  split at h
  · cases h
  · cases h
  · split at h
    · cases h
    · next v t hv =>
      split_ifs at h with hbad hrow
      obtain ⟨w, reg, rm, rfl, rfl, hrm, hregs, ha⟩ := decodeVexOpcode_eq_instr h
      have hbytes := takeVex_eq hb hv hrow.1 hrow.2
      obtain ⟨⟨hno66, hadm⟩, rfl⟩ :
          (Prefix.opSize ∉ ps ∧ Prefix.admitted ps = true) ∧ rex = none := by
        simpa [badBeforeVex] using hbad
      constructor
      · simpa [vexRegistersOk, wf_mkVex, vexWf, VexEnc.wf, hd, hadm, hno66, ha, hrm] using hregs
      · simp [encode_mkVex, encodeVex, rexBytes, hbytes]

/-- R115 step 3. -/
theorem decodeOpcode_eq_instr {m : Mode} {a16 : Bool} {ps : List Prefix} {rex : Option Rex}
    {bs rest : List Byte} {i : Instr} (hd : Prefix.distinct ps = true)
    (hrex : m = .mode64 ∨ rex = none) (h : decodeOpcode m a16 ps rex bs = .instr i rest) :
    i.wf m a16 = true ∧ ps.map Prefix.byte ++ rexBytes rex ++ bs = encode i ++ rest := by
  unfold decodeOpcode at h
  split at h
  · cases h
  · next b t =>
    split_ifs at h with h0F hvex
    · subst h0F; exact decodeLegacy_eq_instr hd hrex h
    · exact decodeVex_eq_instr hd hvex h

/-- The whole decoder: what it answers is well formed, and it took the bytes the encoder writes. -/
theorem decode_eq_instr {m : Mode} {a16 : Bool} {bs rest : List Byte} {i : Instr}
    (h : decode m a16 bs = .instr i rest) : i.wf m a16 = true ∧ bs = encode i ++ rest := by
  unfold decode at h
  split_ifs at h with hd
  obtain ⟨hwf, hbytes⟩ := decodeOpcode_eq_instr hd (takeRex_mode m _) h
  refine ⟨hwf, ?_⟩
  rw [← hbytes, List.append_assoc, takeRex_bytes, ← scanPrefixes_bytes]

/-! ### The byte in front of ModRM (R84) -/

theorem Width.opcode_eq_opcodeByteOfWidth (w : Width) : w.opcode = opcodeByteOfWidth w.bits := by
  cases w <;> rfl

theorem encodeLegacy_opcode_modRM (w : Width) (e : LegacyEnc) (reg : BitVec 3) (rm : RegMem) :
    ∃ front, encodeLegacy w e reg rm = front ++ w.opcode :: rm.bytes reg :=
  ⟨e.prefixes.map Prefix.byte ++ rexBytes e.rex ++ [0x0F#8], by simp [encodeLegacy]⟩

theorem encodeVex_opcode_modRM (l : Bool) (w : Width) (e : VexEnc) (reg : BitVec 3) (rm : RegMem) :
    ∃ front, encodeVex l w e reg rm = front ++ w.opcode :: rm.bytes reg :=
  ⟨e.prefixes.map Prefix.byte ++ vexBytes l e.vvvv e.form, rfl⟩

/-- In all twelve forms the opcode byte of the width stands in front of ModRM. -/
theorem encode_opcode_modRM (i : Instr) :
    ∃ front, encode i = front ++ i.width.opcode :: i.rm.bytes i.reg := by
  cases i with
  | paddbMmx e reg rm | paddbSse e reg rm | paddwMmx e reg rm | paddwSse e reg rm
  | padddMmx e reg rm | padddSse e reg rm => exact encodeLegacy_opcode_modRM _ e reg rm
  | vpaddbXmm e reg rm | vpaddwXmm e reg rm | vpadddXmm e reg rm
  | vpaddbYmm e reg rm | vpaddwYmm e reg rm | vpadddYmm e reg rm =>
    exact encodeVex_opcode_modRM _ _ e reg rm

/-- Settles O6: the decoder took the encoder's bytes, and the encoder writes the opcode byte of the
width in front of ModRM in every form. -/
theorem lastOpcodeByteSelectsWidth : Obligations.LastOpcodeByteSelectsWidth := by
  intro m a16 bytes rest i h
  obtain ⟨-, hbytes⟩ := decode_eq_instr h
  obtain ⟨front, hfront⟩ := encode_opcode_modRM i
  refine ⟨front, ?_⟩
  rw [hbytes, hfront, Width.opcode_eq_opcodeByteOfWidth, List.append_assoc]

end Sys2Proof
end

section
/-! What the lane addition does, lane by lane (40_packed_add_common.md R130, R132), and that the
lanes determine a value. -/

namespace Sys2Proof

theorem Width.bits_pos (w : Width) : 0 < w.bits := by cases w <;> decide

/-- Lanes of every element width fill an XMM register (R135, R136). -/
theorem Width.bits_dvd_128 (w : Width) : w.bits ∣ 128 := by cases w <;> decide

namespace Machine

open Claims

/-- Every lane of `packedAdd` is the sum of the two lanes. -/
theorem lane_packedAdd {n w k : Nat} (hw : 0 < w) (hn : w ∣ n) (a b : BitVec n) (hk : k < n / w) :
    lane w (packedAdd w a b) k = lane w a k + lane w b k := by
  apply BitVec.eq_of_getLsbD_eq
  intro j hj
  have hin : w * k + j < n := by
    calc w * k + j < w * (k + 1) := by rw [Nat.mul_succ]; omega
      _ ≤ w * (n / w) := Nat.mul_le_mul_left w hk
      _ = n := Nat.mul_div_cancel' hn
  have hdiv : (w * k + j) / w = k := by rw [Nat.mul_add_div hw, Nat.div_eq_of_lt hj, Nat.add_zero]
  have hmod : (w * k + j) % w = j := by rw [Nat.mul_add_mod, Nat.mod_eq_of_lt hj]
  rw [getLsbD_lane, getLsbD_packedAdd w hw (Nat.mul_div_cancel' hn) a b _ hin, hdiv, hmod]
  simp [hj]

/-- The lanes of a value determine it. -/
theorem eq_of_lane_eq {n w : Nat} (hw : 0 < w) (hn : w ∣ n) {v u : BitVec n}
    (h : ∀ k < n / w, lane w v k = lane w u k) : v = u := by
  apply BitVec.eq_of_getLsbD_eq
  intro i hi
  have hbit (x : BitVec n) : x.getLsbD i = (lane w x (i / w)).getLsbD (i % w) := by
    simp only [getLsbD_lane, Nat.mod_lt i hw, Nat.div_add_mod, decide_true, Bool.true_and]
  rw [hbit v, hbit u, h (i / w) (Nat.div_lt_div_of_lt_of_dvd hn hi)]

theorem eq_packedAdd_iff {n w : Nat} (hw : 0 < w) (hn : w ∣ n) (a b r : BitVec n) :
    r = packedAdd w a b ↔ ∀ k < n / w, lane w r k = lane w a k + lane w b k := by
  constructor
  · rintro rfl k hk
    exact lane_packedAdd hw hn a b hk
  · intro h
    exact eq_of_lane_eq hw hn fun k hk => (h k hk).trans (lane_packedAdd hw hn a b hk).symm

/-- The sum of two words is their wrapped sum, read as unsigned and as two's complement (R132). -/
theorem wrappedSum_add {w : Nat} (a b : BitVec w) : WrappedSum w a b (a + b) :=
  ⟨BitVec.toNat_add a b, BitVec.toInt_add a b⟩

theorem lanesAdd_packedAdd {n w : Nat} (hw : 0 < w) (hn : w ∣ n) (a b : BitVec n) :
    LanesAdd w a b (packedAdd w a b) := by
  intro k hk
  rw [lane_packedAdd hw hn a b hk]
  exact wrappedSum_add _ _

end Machine

end Sys2Proof
end

section
/-! The reads of the second source operand answer a value exactly when the operand has that value
(20_memory.md R55, R56, 40_packed_add_common.md R135, R136). -/

namespace Sys2Proof.Machine

/-- `MemRead` answers `v` exactly when the operand is legal, aligned as its class asks, and holds
`v`; the free order of #AC(0) and #PF then does not matter. -/
theorem memRead_eq_ok_iff (s : State) (m : Mode) (c : EncClass) (p : Place) (n : Nat)
    (v : BitVec (8 * n)) : s.memRead m c p n = .ok v ↔ MemOperand s m c p n v := by
  have h16 : (needs16 c && p.lin.toNat % 16 != 0) = false ↔
      (c = .sse128 → p.lin.toNat % 16 = 0) := by
    cases c <;> simp [needs16]
  have h8 : (s.checks8 c && p.lin.toNat % 8 != 0) = false ↔
      (c = .mmx64 → s.alignmentChecking = true → p.lin.toNat % 8 = 0) := by
    cases c <;> simp [State.checks8, imp_iff_not_or]
  unfold MemOperand
  rw [← h16, ← h8, ← Memory.readLE_eq_ok_iff]
  unfold State.memRead physical
  cases s.legal m p n
  · simp
  cases needs16 c && p.lin.toNat % 16 != 0
  case true => simp
  cases s.checks8 c && p.lin.toNat % 8 != 0 <;> cases s.mem.readLE p.lin.toNat n
  case true.error => cases Config.alignmentBeforePage s.ip p.lin <;> simp
  all_goals simp

theorem sseSource_eq_ok_iff (s : State) (m : Mode) (e : LegacyEnc) (rm : RegMem) (b : BitVec 128) :
    s.sseSource m e rm = .ok b ↔ SseOperand s m e rm b := by
  cases rm with
  | reg r => simp [State.sseSource, SseOperand, eq_comm]
  | mem f => exact memRead_eq_ok_iff s m .sse128 _ 16 b

theorem xmmSource_eq_ok_iff (s : State) (m : Mode) (e : VexEnc) (rm : RegMem) (b : BitVec 128) :
    s.xmmSource m e rm = .ok b ↔ XmmOperand s m e rm b := by
  cases rm with
  | reg r => simp [State.xmmSource, XmmOperand, eq_comm]
  | mem f => exact memRead_eq_ok_iff s m .vex128 _ 16 b

end Sys2Proof.Machine
end

section
/-! The results of the lane addition and of the 128-bit forms, and the flags
(40_packed_add_common.md R130, R133, R135, R136). -/

namespace Sys2Proof.Machine

open Claims

/-! ### The forms of a class through the class's operation -/

theorem exec_mkSse (w : Width) (e : LegacyEnc) (reg : BitVec 3) (rm : RegMem) (s : State) :
    exec (mkSse w e reg rm) s = addSse w e reg rm s := by cases w <;> rfl

theorem length_mkSse (w : Width) (e : LegacyEnc) (reg : BitVec 3) (rm : RegMem) :
    (mkSse w e reg rm).length = legacyLength e rm := by cases w <;> rfl

theorem exec_mkXmm (w : Width) (e : VexEnc) (reg : BitVec 3) (rm : RegMem) (s : State) :
    exec (mkXmm w e reg rm) s = addXmm w e reg rm s := by cases w <;> rfl

theorem length_mkXmm (w : Width) (e : VexEnc) (reg : BitVec 3) (rm : RegMem) :
    (mkXmm w e reg rm).length = vexLength e rm := by cases w <;> rfl

/-- The `SSE128` form of any width writes the kept upper half above the lane sums (R135). -/
theorem sseAdds_mkSse (w : Width) : SseAdds (mkSse w) w.bits := by
  intro s m e reg rm b hm hready hb
  have hsource := (sseSource_eq_ok_iff s m e rm b).2 hb
  refine ⟨field (s.readYmm (extend3 (rexR e) reg)) 128 128 ++
    packedAdd w.bits (s.readXmm (extend3 (rexR e) reg)) b, ?_, field_high_append _ _, ?_⟩
  · rw [field_low_append]
    exact lanesAdd_packedAdd w.bits_pos w.bits_dvd_128 _ _
  · rw [exec_mkSse, length_mkSse]
    exact (addSse_eq_next_iff w e reg rm s _).2 ⟨m, b, hm, hready, hsource, rfl⟩

/-- The `VEX128` form of any width writes zeros above the lane sums (R136). -/
theorem xmmAdds_mkXmm (w : Width) : XmmAdds (mkXmm w) w.bits := by
  intro s m e reg rm b hm hready hb
  have hsource := (xmmSource_eq_ok_iff s m e rm b).2 hb
  refine ⟨0#128 ++ packedAdd w.bits (s.readXmm e.vvvv) b, ?_, field_high_append _ _, ?_⟩
  · rw [field_low_append]
    exact lanesAdd_packedAdd w.bits_pos w.bits_dvd_128 _ _
  · rw [exec_mkXmm, length_mkXmm]
    exact (addXmm_eq_next_iff w e reg rm s _).2 ⟨m, b, hm, hready, hsource, rfl⟩

/-! ### The statements -/

/-- Settles O11: the lanes of `packedAdd` are the sums, and lanes determine a value. -/
theorem packedAddAddsEveryLane : Obligations.PackedAddAddsEveryLane := by
  intro w hw n hn a b r
  have hsizes : ∀ w ∈ [8, 16, 32], ∀ n ∈ [64, 128, 256], 0 < w ∧ w ∣ n := by decide
  obtain ⟨hpos, hdvd⟩ := hsizes w hw n hn
  simp only [eq_packedAdd_iff hpos hdvd, ← BitVec.toNat_inj, BitVec.toNat_add]

/-- Settles O14, width by width. -/
theorem sseFormsAddAndKeepTheUpperHalf : Obligations.SseFormsAddAndKeepTheUpperHalf :=
  ⟨sseAdds_mkSse .byte, sseAdds_mkSse .word, sseAdds_mkSse .dword⟩

/-- Settles O15, width by width. -/
theorem vex128FormsAddAndZeroTheUpperHalf : Obligations.Vex128FormsAddAndZeroTheUpperHalf :=
  ⟨xmmAdds_mkXmm .byte, xmmAdds_mkXmm .word, xmmAdds_mkXmm .dword⟩

/-- Settles O23: a completed instruction is a form of one of the four classes, and no class's writes
reach EFLAGS or MXCSR. -/
theorem noFlagIsWritten : Obligations.NoFlagIsWritten := by
  intro i s t h
  obtain ⟨w, e, reg, rm, -, hadd⟩ | ⟨w, e, reg, rm, -, hadd⟩ | ⟨w, e, reg, rm, -, hadd⟩ |
    ⟨w, e, reg, rm, -, hadd⟩ := exec_eq_next h
  · obtain ⟨m, b, -, -, -, rfl⟩ := (addMmx_eq_next_iff w e reg rm s t).1 hadd
    simp
  · obtain ⟨m, b, -, -, -, rfl⟩ := (addSse_eq_next_iff w e reg rm s t).1 hadd
    simp
  · obtain ⟨m, b, -, -, -, rfl⟩ := (addXmm_eq_next_iff w e reg rm s t).1 hadd
    simp
  · obtain ⟨m, b, -, -, -, rfl⟩ := (addYmm_eq_next_iff w e reg rm s t).1 hadd
    simp

end Sys2Proof.Machine
end

section
/-! The decoder on bytes written part by part: one equation per stage of R115 (30_encoding.md), and
what more bytes behind an answer change. -/

namespace Sys2Proof

open Claims

/-! ### Prefixes and REX in front of the opcode -/

theorem scanPrefixes_map_append (ps : List Prefix) (t : List Byte) :
    scanPrefixes (ps.map Prefix.byte ++ t) = (ps ++ (scanPrefixes t).1, (scanPrefixes t).2) := by
  induction ps with
  | nil => rfl
  | cons p ps ih => simp [scanPrefixes, ih]

/-- Two prefixes of one kind stay such whatever is scanned behind them. -/
theorem Prefix.distinct_append_of_not {ps qs : List Prefix} (h : Prefix.distinct ps = false) :
    Prefix.distinct (ps ++ qs) = false := by
  simp only [Prefix.distinct, decide_eq_false_iff_not, List.map_append] at h ⊢
  exact fun hnodup => h hnodup.of_append_left

theorem decode_repeatedPrefix (m : Mode) (a16 : Bool) {ps : List Prefix} (t : List Byte)
    (h : Prefix.distinct ps = false) :
    decode m a16 (ps.map Prefix.byte ++ t) = .reject .repeatedPrefix := by
  rw [decode, scanPrefixes_map_append, Prefix.distinct_append_of_not h]
  rfl

/-- After the prefixes and the REX byte the decoder is at the byte `b`, which is neither unless a
REX byte stands before it. -/
theorem decode_front {m : Mode} {a16 : Bool} {ps : List Prefix} {rex : Option Rex} {b : Byte}
    (t : List Byte) (hd : Prefix.distinct ps = true) (hrex : m = .mode32 → rex = none)
    (hb : rex = none → Prefix.ofByte? b = none ∧ (m = .mode64 → Rex.ofByte? b = none)) :
    decode m a16 (ps.map Prefix.byte ++ rexBytes rex ++ b :: t) =
      decodeOpcode m a16 ps rex (b :: t) := by
  cases rex with
  | none =>
    obtain ⟨hprefix, hrexByte⟩ := hb rfl
    have htake : takeRex m (b :: t) = (none, b :: t) := by
      cases m with
      | mode64 => simp [takeRex, hrexByte rfl]
      | mode32 => rfl
    simp [decode, rexBytes, scanPrefixes_append ps b t hprefix, hd, htake]
  | some r =>
    obtain rfl : m = .mode64 := by
      cases m with
      | mode64 => rfl
      | mode32 => exact nomatch hrex rfl
    simp [decode, rexBytes, scanPrefixes_append ps r.byte (b :: t) r.byte_not_prefix, hd, takeRex]

theorem decode_0F {m : Mode} {a16 : Bool} {ps : List Prefix} {rex : Option Rex} (t : List Byte)
    (hd : Prefix.distinct ps = true) (hrex : m = .mode32 → rex = none) :
    decode m a16 (ps.map Prefix.byte ++ rexBytes rex ++ 0x0F#8 :: t) =
      decodeLegacy m a16 ps rex t :=
  decode_front t hd hrex fun _ => ⟨rfl, fun _ => rfl⟩

theorem decode_C4_C5 {m : Mode} {a16 : Bool} {ps : List Prefix} {rex : Option Rex} {b : Byte}
    (t : List Byte) (hd : Prefix.distinct ps = true) (hrex : m = .mode32 → rex = none)
    (hb : b = 0xC4#8 ∨ b = 0xC5#8) :
    decode m a16 (ps.map Prefix.byte ++ rexBytes rex ++ b :: t) =
      decodeVex m a16 ps rex b t := by
  obtain rfl | rfl := hb <;>
    exact decode_front t hd hrex fun _ => ⟨rfl, fun _ => rfl⟩

/-! ### Legacy forms -/

theorem decodeLegacy_opcode (m : Mode) (a16 : Bool) (ps : List Prefix) (rex : Option Rex)
    (w : Width) (t : List Byte) : decodeLegacy m a16 ps rex (w.opcode :: t) =
      if Prefix.repne ∈ ps ∨ Prefix.rep ∈ ps then .reject .repeatString
      else if Prefix.lock ∈ ps then .invalidOpcode
      else decodeOperands m a16 ps (mkLegacy w ⟨ps, rex⟩) t := by
  simp [decodeLegacy]

/-- Only admitted prefixes: no LOCK, F2H or F3H among them (R117, R118). -/
theorem Prefix.admitted_iff (ps : List Prefix) :
    Prefix.admitted ps = true ↔ Prefix.lock ∉ ps ∧ Prefix.repne ∉ ps ∧ Prefix.rep ∉ ps := by
  constructor
  · intro h
    refine ⟨?_, ?_, ?_⟩ <;> intro hmem <;> simpa using List.all_eq_true.1 h _ hmem
  · rintro ⟨hlock, hrepne, hrep⟩
    exact admitted_of_not_contains (by simp [hrepne, hrep]) (by simpa using hlock)

theorem decodeOperands_bytes {m : Mode} {a16 : Bool} {ps : List Prefix}
    (mk : BitVec 3 → RegMem → Instr) (reg : BitVec 3) {rm : RegMem} (rest : List Byte)
    (ha : addr16Admitted m a16 ps = true) (hrm : rm.wf (addr16 m ps) = true) :
    decodeOperands m a16 ps mk (rm.bytes reg ++ rest) = .instr (mk reg rm) rest := by
  simp [decodeOperands, ha, parseModRM_bytes _ reg rm rest hrm]

/-- A well-formed legacy encoding decodes to the row 66H chooses (R83). -/
theorem decode_encodeLegacy {m : Mode} {a16 needs66 : Bool} (w : Width) {e : LegacyEnc}
    (reg : BitVec 3) {rm : RegMem} (rest : List Byte) (h : legacyWf m a16 needs66 e rm = true) :
    decode m a16 (encodeLegacy w e reg rm ++ rest) =
      .instr ((if needs66 then mkSse else mkMmx) w e reg rm) rest := by
  obtain ⟨ps, rex⟩ := e
  simp only [legacyWf, LegacyEnc.wf, Bool.and_eq_true, Bool.or_eq_true, beq_iff_eq,
    decide_eq_true_eq, Option.isNone_iff_eq_none] at h
  obtain ⟨⟨⟨⟨⟨hd, hadm⟩, h66⟩, hrex⟩, ha⟩, hrm⟩ := h
  obtain ⟨hlock, hrepne, hrep⟩ := (Prefix.admitted_iff ps).1 hadm
  have hrex32 : m = .mode32 → rex = none := by
    rintro rfl
    simpa using hrex
  have hmk : mkLegacy w ⟨ps, rex⟩ = (if needs66 then mkSse else mkMmx) w ⟨ps, rex⟩ := by
    subst h66
    unfold mkLegacy
    split <;> rfl
  calc decode m a16 (encodeLegacy w ⟨ps, rex⟩ reg rm ++ rest)
      = decode m a16 (ps.map Prefix.byte ++ rexBytes rex ++
          0x0F#8 :: w.opcode :: (rm.bytes reg ++ rest)) := by simp [encodeLegacy]
    _ = decodeLegacy m a16 ps rex (w.opcode :: (rm.bytes reg ++ rest)) := decode_0F _ hd hrex32
    _ = decodeOperands m a16 ps (mkLegacy w ⟨ps, rex⟩) (rm.bytes reg ++ rest) := by
      simp [decodeLegacy_opcode, hlock, hrepne, hrep]
    _ = _ := by rw [decodeOperands_bytes _ reg rest ha hrm, hmk]

/-! ### VEX forms -/

theorem vexRecognised_cons {m : Mode} {p : Byte} (t : List Byte)
    (h : m = .mode32 → field p 6 2 = 3#2) : vexRecognised m (p :: t) = some true := by
  cases m with
  | mode64 => rfl
  | mode32 => simp [vexRecognised, h rfl]

theorem vexRecognised_vexBytes {m : Mode} {l : Bool} {v : BitVec 4} {f : VexForm} (t : List Byte)
    (h : m = .mode32 → field ((vexBytes l v f).getD 1 0#8) 6 2 = 3#2) :
    vexRecognised m ((vexBytes l v f).tail ++ t) = some true := by
  cases f <;> exact vexRecognised_cons _ h

/-- Without an extension bit and with `vvvv` below 8 the byte after C4H or C5H has 11b above, as
R113 asks in `Mode32`. -/
theorem vexBytes_high_bits {v : BitVec 4} {f : VexForm} (l : Bool) (hf : f.plain = true)
    (hv : bitAt v 3 = false) : field ((vexBytes l v f).getD 1 0#8) 6 2 = 3#2 := by
  cases f with
  | two r =>
    obtain rfl : r = false := by simpa [VexForm.plain] using hf
    revert v l; decide
  | three r x b w =>
    obtain ⟨⟨rfl, rfl⟩, rfl⟩ : (r = false ∧ x = false) ∧ b = false := by
      simpa [VexForm.plain] using hf
    revert v l w; decide

theorem badBeforeVex_eq_false_iff (ps : List Prefix) (rex : Option Rex) :
    badBeforeVex ps rex = false ↔ Prefix.opSize ∉ ps ∧ Prefix.admitted ps = true ∧ rex = none := by
  simp [badBeforeVex, and_assoc]

theorem badBeforeVex_of_beforeVex {ps : List Prefix} (h : BeforeVex ps) :
    badBeforeVex ps none = false := by
  have hnot (p : Prefix) (h1 : p ≠ .addrSize) (h2 : ∀ g, p ≠ .seg g) : p ∉ ps := fun hp =>
    (h.2 p hp).elim h1 fun ⟨g, hg⟩ => h2 g hg
  exact (badBeforeVex_eq_false_iff ps none).2 ⟨hnot _ nofun nofun,
    (Prefix.admitted_iff ps).2 ⟨hnot _ nofun nofun, hnot _ nofun nofun, hnot _ nofun nofun⟩, rfl⟩

/-- The decoder reads the encoder's VEX bytes and is at the opcode byte (R111, R113, R118). -/
theorem decode_vexBytes {m : Mode} {a16 l : Bool} {ps : List Prefix} {v : BitVec 4} {f : VexForm}
    (t : List Byte) (hd : Prefix.distinct ps = true) (hbad : badBeforeVex ps none = false)
    (hhigh : m = .mode32 → field ((vexBytes l v f).getD 1 0#8) 6 2 = 3#2) :
    decode m a16 (ps.map Prefix.byte ++ vexBytes l v f ++ t) =
      decodeVexOpcode m a16 ps ⟨f, 1#5, v, l, 1#2⟩ t := by
  have hescape : f.escape = 0xC4#8 ∨ f.escape = 0xC5#8 := by
    cases f
    · exact .inr rfl
    · exact .inl rfl
  calc decode m a16 (ps.map Prefix.byte ++ vexBytes l v f ++ t)
      = decode m a16 (ps.map Prefix.byte ++ rexBytes none ++
          f.escape :: ((vexBytes l v f).tail ++ t)) := by rw [vexBytes_cons]; simp [rexBytes]
    _ = decodeVex m a16 ps none f.escape ((vexBytes l v f).tail ++ t) :=
      decode_C4_C5 _ hd (fun _ => rfl) hescape
    _ = _ := by simp [decodeVex, vexRecognised_vexBytes t hhigh, takeVex_bytes, hbad]

theorem decodeVexOpcode_opcode (m : Mode) (a16 : Bool) (ps : List Prefix) (v : VexFields)
    (w : Width) (t : List Byte) : decodeVexOpcode m a16 ps v (w.opcode :: t) =
      if vexRegistersOk m v then decodeOperands m a16 ps (mkVex v.l w ⟨ps, v.form, v.vvvv⟩) t
      else .reject .vexRegisterInMode32 := by
  simp [decodeVexOpcode]

/-- A well-formed VEX encoding decodes to the row `L` chooses (R112). -/
theorem decode_encodeVex {m : Mode} {a16 : Bool} (l : Bool) (w : Width) {e : VexEnc}
    (reg : BitVec 3) {rm : RegMem} (rest : List Byte) (h : vexWf m a16 e rm = true) :
    decode m a16 (encodeVex l w e reg rm ++ rest) = .instr (mkVex l w e reg rm) rest := by
  obtain ⟨ps, f, v⟩ := e
  simp only [vexWf, VexEnc.wf, Bool.and_eq_true, Bool.not_eq_true', List.contains_eq_mem,
    decide_eq_false_iff_not] at h
  obtain ⟨⟨⟨⟨⟨hd, hadm⟩, h66⟩, hregs⟩, ha⟩, hrm⟩ := h
  have hbad : badBeforeVex ps none = false :=
    (badBeforeVex_eq_false_iff ps none).2 ⟨h66, hadm, rfl⟩
  have hhigh : m = .mode32 → field ((vexBytes l v f).getD 1 0#8) 6 2 = 3#2 := by
    rintro rfl
    obtain ⟨hf, hv⟩ : f.plain = true ∧ bitAt v 3 = false := by simpa using hregs
    exact vexBytes_high_bits l hf hv
  calc decode m a16 (encodeVex l w ⟨ps, f, v⟩ reg rm ++ rest)
      = decode m a16 (ps.map Prefix.byte ++ vexBytes l v f ++
          w.opcode :: (rm.bytes reg ++ rest)) := by simp [encodeVex]
    _ = decodeVexOpcode m a16 ps ⟨f, 1#5, v, l, 1#2⟩ (w.opcode :: (rm.bytes reg ++ rest)) :=
      decode_vexBytes _ hd hbad hhigh
    _ = decodeOperands m a16 ps (mkVex l w ⟨ps, f, v⟩) (rm.bytes reg ++ rest) := by
      rw [decodeVexOpcode_opcode, vexRegistersOk, hregs, if_pos rfl]
    _ = _ := decodeOperands_bytes _ reg rest ha hrm

/-! ### The round trip -/

/-- Settles O1, form by form: a legacy or a VEX encoding, whose prefixes, REX or VEX bytes, opcode
and operand the stages of the decoder read back. -/
theorem decodeUndoesEncode : Obligations.DecodeUndoesEncode := by
  intro m a16 i rest h
  cases i with
  | paddbMmx e reg rm | paddbSse e reg rm | paddwMmx e reg rm | paddwSse e reg rm
  | padddMmx e reg rm | padddSse e reg rm => exact decode_encodeLegacy _ reg rest h
  | vpaddbXmm e reg rm | vpaddwXmm e reg rm | vpadddXmm e reg rm
  | vpaddbYmm e reg rm | vpaddwYmm e reg rm | vpadddYmm e reg rm =>
    exact decode_encodeVex _ _ reg rest h

/-- Settles O2: every stage of the decoder answers with the encoder's bytes. -/
theorem decodedInstructionHoldsEveryBit : Obligations.DecodedInstructionHoldsEveryBit :=
  fun _ _ _ _ _ h => decode_eq_instr h

/-! ### The length of an encoding -/

theorem encode_length (i : Instr) : (encode i).length = i.length := by
  cases i with
  | paddbMmx e reg rm | paddbSse e reg rm | paddwMmx e reg rm | paddwSse e reg rm
  | padddMmx e reg rm | padddSse e reg rm => exact Laws.EncodedLength.legacy _ e reg rm
  | vpaddbXmm e reg rm | vpaddwXmm e reg rm | vpadddXmm e reg rm
  | vpaddbYmm e reg rm | vpaddwYmm e reg rm | vpadddYmm e reg rm =>
    exact Laws.EncodedLength.vex _ _ e reg rm

/-- At most one of each kind that can stand before an instruction (R115 step 1). -/
theorem length_le_of_distinct {ps : List Prefix} {kinds : List PrefixKind}
    (hd : Prefix.distinct ps = true) (h : ∀ p ∈ ps, p.kind ∈ kinds) :
    ps.length ≤ kinds.length := by
  have hsub : ps.map Prefix.kind ⊆ kinds := by
    intro k hk
    obtain ⟨p, hp, rfl⟩ := List.mem_map.1 hk
    exact h p hp
  simpa using ((of_decide_eq_true hd).subperm hsub).length_le

theorem kind_mem_of_admitted {ps : List Prefix} (h : Prefix.admitted ps = true) {p : Prefix}
    (hp : p ∈ ps) : p.kind ∈ [PrefixKind.opSize, .addrSize, .seg] := by
  obtain ⟨hlock, hrepne, hrep⟩ := (Prefix.admitted_iff ps).1 h
  cases p with
  | opSize | addrSize | seg => simp [Prefix.kind]
  | lock | repne | rep => contradiction

theorem RegMem.length_bounds (rm : RegMem) : 1 ≤ rm.length ∧ rm.length ≤ 6 := by
  cases rm with
  | reg r => simp [RegMem.length]
  | mem f =>
    cases f with
    | base r d | sib ss idx r d => cases d <;> simp [RegMem.length, Disp.length]
    | base16 r d => cases d <;> simp [RegMem.length, Disp16.length]
    | disp32 | sibNoBase | disp16 => simp [RegMem.length]

theorem legacyLength_bounds {m : Mode} {a16 needs66 : Bool} {e : LegacyEnc} {rm : RegMem}
    (h : legacyWf m a16 needs66 e rm = true) :
    3 ≤ legacyLength e rm ∧ legacyLength e rm ≤ 12 := by
  simp only [legacyWf, LegacyEnc.wf, Bool.and_eq_true] at h
  obtain ⟨⟨⟨⟨⟨hd, hadm⟩, -⟩, -⟩, -⟩, -⟩ := h
  have hps : e.prefixes.length ≤ 3 := length_le_of_distinct hd fun p => kind_mem_of_admitted hadm
  have hrm := rm.length_bounds
  unfold legacyLength
  split <;> omega

theorem vexLength_bounds {m : Mode} {a16 : Bool} {e : VexEnc} {rm : RegMem}
    (h : vexWf m a16 e rm = true) : 3 ≤ vexLength e rm ∧ vexLength e rm ≤ 12 := by
  simp only [vexWf, VexEnc.wf, Bool.and_eq_true, Bool.not_eq_true', List.contains_eq_mem,
    decide_eq_false_iff_not] at h
  obtain ⟨⟨⟨⟨⟨hd, hadm⟩, h66⟩, -⟩, -⟩, -⟩ := h
  have hps : e.prefixes.length ≤ 2 := by
    refine length_le_of_distinct (kinds := [.addrSize, .seg]) hd fun p hp => ?_
    have hkind := kind_mem_of_admitted hadm hp
    cases p <;> simp_all [Prefix.kind]
  have hform : 2 ≤ e.form.length ∧ e.form.length ≤ 3 := by
    cases e.form <;> simp [VexForm.length]
  have hrm := rm.length_bounds
  unfold vexLength
  omega

theorem length_bounds {m : Mode} {a16 : Bool} {i : Instr} (h : i.wf m a16 = true) :
    3 ≤ i.length ∧ i.length ≤ 12 := by
  cases i with
  | paddbMmx e reg rm | paddbSse e reg rm | paddwMmx e reg rm | paddwSse e reg rm
  | padddMmx e reg rm | padddSse e reg rm => exact legacyLength_bounds h
  | vpaddbXmm e reg rm | vpaddwXmm e reg rm | vpadddXmm e reg rm
  | vpaddbYmm e reg rm | vpaddwYmm e reg rm | vpadddYmm e reg rm => exact vexLength_bounds h

/-- Settles O3: at most three prefixes, REX, two opcode bytes and six bytes from ModRM on, or two
prefixes, VEX, the opcode byte and those six. -/
theorem encodingIsThreeToTwelveBytes : Obligations.EncodingIsThreeToTwelveBytes := by
  intro m a16 i h
  rw [encode_length]
  exact length_bounds h

end Sys2Proof
end

section
/-! What the decoder refuses, and what stands behind a complete answer (30_encoding.md R82, R112 to
R118). -/

namespace Sys2Proof

open Machine Claims

/-! ### Bytes behind an answer -/

/-- An answer with more bytes left over. -/
def Decoded.withMore (more : List Byte) : Decoded → Decoded
  | .instr i rest => .instr i (rest ++ more)
  | d => d

theorem parseModRM_append {wide16 : Bool} {t rest : List Byte} {reg : BitVec 3} {rm : RegMem}
    (more : List Byte) (h : parseModRM wide16 t = some (reg, rm, rest)) :
    parseModRM wide16 (t ++ more) = some (reg, rm, rest ++ more) := by
  obtain ⟨hwf, rfl⟩ := parseModRM_eq h
  rw [List.append_assoc]
  exact parseModRM_bytes wide16 reg rm _ hwf

theorem decodeOperands_append {m : Mode} {a16 : Bool} {ps : List Prefix}
    {mk : BitVec 3 → RegMem → Instr} {t : List Byte} (more : List Byte)
    (h : decodeOperands m a16 ps mk t ≠ .truncated) :
    decodeOperands m a16 ps mk (t ++ more) = (decodeOperands m a16 ps mk t).withMore more := by
  unfold decodeOperands at h ⊢
  split_ifs at h ⊢ with ha
  · cases hp : parseModRM (addr16 m ps) t with
    | none => exact absurd (by rw [hp]) h
    | some r => rw [parseModRM_append more hp]; rfl
  · rfl

theorem decodeLegacy_append {m : Mode} {a16 : Bool} {ps : List Prefix} {rex : Option Rex}
    {t : List Byte} (more : List Byte) (h : decodeLegacy m a16 ps rex t ≠ .truncated) :
    decodeLegacy m a16 ps rex (t ++ more) = (decodeLegacy m a16 ps rex t).withMore more := by
  cases t with
  | nil => exact absurd rfl h
  | cons op t =>
    simp only [List.cons_append, decodeLegacy] at h ⊢
    cases hw : Width.ofOpcode? op with
    | none => rfl
    | some w =>
      simp only [hw] at h ⊢
      split_ifs at h ⊢ with hrep hlock
      · rfl
      · rfl
      · exact decodeOperands_append more h

theorem decodeVexOpcode_append {m : Mode} {a16 : Bool} {ps : List Prefix} {v : VexFields}
    {t : List Byte} (more : List Byte) (h : decodeVexOpcode m a16 ps v t ≠ .truncated) :
    decodeVexOpcode m a16 ps v (t ++ more) = (decodeVexOpcode m a16 ps v t).withMore more := by
  cases t with
  | nil => exact absurd rfl h
  | cons op t =>
    simp only [List.cons_append, decodeVexOpcode] at h ⊢
    cases hw : Width.ofOpcode? op with
    | none => rfl
    | some w =>
      simp only [hw] at h ⊢
      split_ifs at h ⊢ with hregs
      · exact decodeOperands_append more h
      · rfl

theorem takeVex_append {b : Byte} {t rest : List Byte} {v : VexFields} (more : List Byte)
    (h : takeVex b t = some (v, rest)) : takeVex b (t ++ more) = some (v, rest ++ more) := by
  unfold takeVex at h ⊢
  split_ifs at h ⊢ with hb
  · match t, h with
    | p :: t, h => simpa using h
  · match t, h with
    | p1 :: p2 :: t, h => simpa using h

theorem vexRecognised_append {m : Mode} {t : List Byte} {r : Bool} (more : List Byte)
    (h : vexRecognised m t = some r) : vexRecognised m (t ++ more) = some r := by
  cases m with
  | mode64 => exact h
  | mode32 =>
    cases t with
    | nil => cases h
    | cons p t => exact h

theorem decodeVex_append {m : Mode} {a16 : Bool} {ps : List Prefix} {rex : Option Rex} {b : Byte}
    {t : List Byte} (more : List Byte) (h : decodeVex m a16 ps rex b t ≠ .truncated) :
    decodeVex m a16 ps rex b (t ++ more) = (decodeVex m a16 ps rex b t).withMore more := by
  unfold decodeVex at h ⊢
  cases hr : vexRecognised m t with
  | none => simp [hr] at h
  | some r =>
    rw [vexRecognised_append more hr]
    cases r with
    | false => rfl
    | true =>
      cases hv : takeVex b t with
      | none => simp [hr, hv] at h
      | some vt =>
        simp only [hr, hv, takeVex_append more hv] at h ⊢
        split_ifs at h ⊢ with hbad hrow
        · rfl
        · exact decodeVexOpcode_append more h
        · rfl

theorem decodeOpcode_append {m : Mode} {a16 : Bool} {ps : List Prefix} {rex : Option Rex}
    {t : List Byte} (more : List Byte) (h : decodeOpcode m a16 ps rex t ≠ .truncated) :
    decodeOpcode m a16 ps rex (t ++ more) = (decodeOpcode m a16 ps rex t).withMore more := by
  cases t with
  | nil => exact absurd rfl h
  | cons b t =>
    simp only [List.cons_append, decodeOpcode] at h ⊢
    split_ifs at h ⊢ with h0F hvex hrex
    · exact decodeLegacy_append more h
    · exact decodeVex_append more h
    · rfl
    · rfl

theorem takeRex_append {m : Mode} {t : List Byte} (more : List Byte) (h : t ≠ []) :
    takeRex m (t ++ more) = ((takeRex m t).1, (takeRex m t).2 ++ more) := by
  cases t with
  | nil => exact absurd rfl h
  | cons b t =>
    simp only [List.cons_append, takeRex]
    split <;> rfl

theorem scanPrefixes_append_more {bs : List Byte} (more : List Byte)
    (h : (scanPrefixes bs).2 ≠ []) :
    scanPrefixes (bs ++ more) = ((scanPrefixes bs).1, (scanPrefixes bs).2 ++ more) := by
  obtain ⟨b, t, ht⟩ := List.exists_cons_of_ne_nil h
  conv_lhs => rw [scanPrefixes_bytes bs, ht, List.append_assoc, List.cons_append]
  rw [scanPrefixes_append _ b _ (scanPrefixes_head ht), ht, List.cons_append]

/-- An answer other than "more bytes are needed" is kept, with the bytes behind it left over. -/
theorem decode_append {m : Mode} {a16 : Bool} {bytes : List Byte} (more : List Byte)
    (h : decode m a16 bytes ≠ .truncated) :
    decode m a16 (bytes ++ more) = (decode m a16 bytes).withMore more := by
  cases hd : Prefix.distinct (scanPrefixes bytes).1 with
  | false =>
    have hrep := decode_repeatedPrefix m a16 ((scanPrefixes bytes).2 ++ more) hd
    rw [← List.append_assoc, ← scanPrefixes_bytes] at hrep
    rw [hrep, decode, hd]
    rfl
  | true =>
    have hne : (scanPrefixes bytes).2 ≠ [] := fun hnil =>
      h (by simp [decode, hd, hnil, takeRex, decodeOpcode])
    simp only [decode, scanPrefixes_append_more more hne, takeRex_append more hne, hd, if_true]
      at h ⊢
    exact decodeOpcode_append more h

/-- Settles O4: each stage of the decoder keeps its answer when bytes are added behind. -/
theorem decodeIgnoresLaterBytes : Obligations.DecodeIgnoresLaterBytes := by
  intro m a16 bytes more h
  rw [decode_append more h]
  rfl

/-- Settles O5, by running the decoder on the eight words. -/
theorem decodeReadsTheVectorsWords : Obligations.DecodeReadsTheVectorsWords := by
  unfold Obligations.DecodeReadsTheVectorsWords
  decide

/-! ### Prefixes that choose or refuse -/

theorem mkMmx_fields (w : Width) (e : LegacyEnc) (reg : BitVec 3) (rm : RegMem) :
    (mkMmx w e reg rm).cls = .mmx64 ∧ (mkMmx w e reg rm).width = w ∧
      (mkMmx w e reg rm).reg = reg ∧ (mkMmx w e reg rm).rm = rm := by
  cases w <;> exact ⟨rfl, rfl, rfl, rfl⟩

theorem mkSse_fields (w : Width) (e : LegacyEnc) (reg : BitVec 3) (rm : RegMem) :
    (mkSse w e reg rm).cls = .sse128 ∧ (mkSse w e reg rm).width = w ∧
      (mkSse w e reg rm).reg = reg ∧ (mkSse w e reg rm).rm = rm := by
  cases w <;> exact ⟨rfl, rfl, rfl, rfl⟩

/-- Settles O7: behind `0F` the two decodings take the same operands, with 32-bit or 64-bit
addressing, and differ in the row 66H chooses. -/
theorem prefix66SelectsTheClass : Obligations.Prefix66SelectsTheClass := by
  intro m a16 bytes rest i h
  have hlegacy (ps : List Prefix) (hd : Prefix.distinct ps = true) :
      decode m a16 (ps.map Prefix.byte ++ 0x0F#8 :: bytes) = decodeLegacy m a16 ps none bytes := by
    simpa [rexBytes] using decode_0F (rex := none) bytes hd fun _ => rfl
  have h0 := hlegacy [] rfl
  have h66 := hlegacy [.opSize] rfl
  simp only [List.map_nil, List.nil_append] at h0
  rw [h0] at h
  cases bytes with
  | nil => cases h
  | cons op t =>
    cases hw : Width.ofOpcode? op with
    | none => simp [decodeLegacy, hw] at h
    | some w =>
      obtain rfl := Width.opcode_of_ofOpcode? hw
      rw [decodeLegacy_opcode] at h h66
      obtain ⟨reg, rm, rfl, rfl, hrm, ha⟩ := decodeOperands_eq_instr (by simpa using h)
      have haddr : addr16 m [.opSize] = false := by simp [addr16]
      rw [show addr16 m [] = false by simp [addr16]] at hrm
      obtain ⟨hcls, hwidth, hreg, hrm'⟩ := mkMmx_fields w ⟨[], none⟩ reg rm
      obtain ⟨hcls', hwidth', hreg', hrm''⟩ := mkSse_fields w ⟨[.opSize], none⟩ reg rm
      refine ⟨hcls, mkSse w ⟨[.opSize], none⟩ reg rm, ?_, hcls', hwidth'.trans hwidth.symm,
        hreg'.trans hreg.symm, hrm''.trans hrm'.symm⟩
      refine h66.trans ?_
      simpa [mkLegacy] using decodeOperands_bytes (mkLegacy w ⟨[.opSize], none⟩) reg rest
        (by simp [addr16Admitted, haddr]) (haddr ▸ hrm)

/-- R118: 66H, LOCK, F2H, F3H or REX before VEX is #UD whatever the VEX bytes say. -/
theorem decode_badBeforeVex {m : Mode} {a16 : Bool} {ps : List Prefix} {rex : Option Rex}
    {b p : Byte} {t rest : List Byte} {v : VexFields} (hd : Prefix.distinct ps = true)
    (hbad : badBeforeVex ps rex = true) (hm : m = .mode32 → rex = none ∧ field p 6 2 = 3#2)
    (hb : b = 0xC4#8 ∨ b = 0xC5#8) (hv : takeVex b (p :: t) = some (v, rest)) :
    decode m a16 (ps.map Prefix.byte ++ rexBytes rex ++ b :: p :: t) = .invalidOpcode := by
  rw [decode_C4_C5 _ hd (fun h => (hm h).1) hb]
  simp [decodeVex, vexRecognised_cons t fun h => (hm h).2, hv, hbad]

/-- Settles O8: LOCK is found after the opcode is known, and what R118 refuses before VEX after the
VEX bytes are taken. -/
theorem lockAndPrefixedVexAreInvalid : Obligations.LockAndPrefixedVexAreInvalid := by
  constructor
  · intro m a16 ps rex w t hd hlock hrepne hrep hrex
    rw [decode_0F _ hd hrex, decodeLegacy_opcode]
    simp [hlock, hrepne, hrep]
  · intro m a16 ps rex p t hd hcause hm
    have hbad : badBeforeVex ps rex = true := by
      rw [← Bool.not_eq_false, badBeforeVex_eq_false_iff, Prefix.admitted_iff]
      rintro ⟨h66, ⟨hlock, hrepne, hrep⟩, rfl⟩
      simp_all
    exact ⟨decode_badBeforeVex hd hbad hm (.inr rfl) rfl,
      fun p2 => decode_badBeforeVex hd hbad hm (.inl rfl) rfl⟩

/-- Settles O9: the three refusals of D15 at their places in the decoder. -/
theorem strayPrefixesAreRefused : Obligations.StrayPrefixesAreRefused := by
  refine ⟨fun m a16 ps t hd => decode_repeatedPrefix m a16 t hd, ?_, ?_⟩
  · intro m a16 ps rex w t hd hrep hrex
    rw [decode_0F _ hd hrex, decodeLegacy_opcode, if_pos hrep]
  · intro a16 ps r p t hd
    have hfront := decode_front (m := .mode64) (a16 := a16) (rex := some r) (b := p.byte) t hd
      nofun nofun
    have hbyte : p.byte ≠ 0x0F#8 ∧ p.byte ≠ 0xC4#8 ∧ p.byte ≠ 0xC5#8 := by
      cases p with
      | seg g => cases g <;> decide
      | opSize | addrSize | lock | repne | rep => decide
    simpa [rexBytes, decodeOpcode, hbyte] using hfront

/-! ### Registers in `Mode32` -/

theorem extend3_false_lt (r : BitVec 3) : (extend3 false r).toNat < 8 := by
  revert r; decide

theorem rex_eq_none_of_legacyWf {a16 needs66 : Bool} {e : LegacyEnc} {rm : RegMem}
    (h : legacyWf .mode32 a16 needs66 e rm = true) : e.rex = none := by
  simp only [legacyWf, LegacyEnc.wf, Bool.and_eq_true] at h
  obtain ⟨⟨⟨-, hrex⟩, -⟩, -⟩ := h
  simpa using hrex

/-- `vvvv` below 8 is the clear high bit. -/
theorem bitAt_three_eq_false_iff (v : BitVec 4) : bitAt v 3 = false ↔ v.toNat < 8 := by
  revert v; decide

/-- R113, D26: no extension bit and `vvvv` below 8. -/
theorem registers_of_vexWf {a16 : Bool} {e : VexEnc} {rm : RegMem}
    (h : vexWf .mode32 a16 e rm = true) :
    vexR e = false ∧ vexX e = false ∧ vexB e = false ∧ e.vvvv.toNat < 8 := by
  obtain ⟨ps, f, v⟩ := e
  simp only [vexWf, VexEnc.wf, Bool.and_eq_true] at h
  obtain ⟨⟨⟨-, hregs⟩, -⟩, -⟩ := h
  obtain ⟨hf, hv⟩ : f.plain = true ∧ bitAt v 3 = false := by simpa using hregs
  have hv8 := (bitAt_three_eq_false_iff v).1 hv
  cases f with
  | two r =>
    obtain rfl : r = false := by simpa [VexForm.plain] using hf
    exact ⟨rfl, rfl, rfl, hv8⟩
  | three r x b w =>
    obtain ⟨⟨rfl, rfl⟩, rfl⟩ : (r = false ∧ x = false) ∧ b = false := by
      simpa [VexForm.plain] using hf
    exact ⟨rfl, rfl, rfl, hv8⟩

/-- Settles O10: what is decoded is well formed, and well-formed encodings of `Mode32` carry neither
REX nor an extension bit. -/
theorem mode32NamesRegistersBelowEight : Obligations.Mode32NamesRegistersBelowEight := by
  intro a16 bytes rest i h
  obtain ⟨hwf, -⟩ := decode_eq_instr h
  refine ⟨?_, ?_, ?_⟩
  · cases i with
    | paddbMmx e r rm | paddwMmx e r rm | padddMmx e r rm => exact extend3_false_lt r
    | paddbSse e r rm | paddwSse e r rm | padddSse e r rm =>
      have hr : rexR e = false := by rw [rexR, rex_eq_none_of_legacyWf hwf]
      rw [dest, hr]
      exact extend3_false_lt r
    | vpaddbXmm e r rm | vpaddwXmm e r rm | vpadddXmm e r rm
    | vpaddbYmm e r rm | vpaddwYmm e r rm | vpadddYmm e r rm =>
      rw [dest, (registers_of_vexWf hwf).1]
      exact extend3_false_lt r
  · intro e r rm hi
    have hrex : e.rex = none := by
      simp only [List.mem_cons, List.not_mem_nil, or_false] at hi
      obtain rfl | rfl | rfl | rfl | rfl | rfl := hi <;> exact rex_eq_none_of_legacyWf hwf
    simp [rexX, rexB, hrex]
  · intro e r rm hi
    have hvex : vexWf .mode32 a16 e rm = true := by
      simp only [List.mem_cons, List.not_mem_nil, or_false] at hi
      obtain rfl | rfl | rfl | rfl | rfl | rfl := hi <;> exact hwf
    obtain ⟨-, hx, hb, hv⟩ := registers_of_vexWf hvex
    exact ⟨hv, hx, hb⟩

/-! ### Bytes of other instructions -/

theorem ofOpcode?_eq_none {op : Byte} (h : OtherOpcode op) : Width.ofOpcode? op = none := by
  simp [Width.ofOpcode?, h.1, h.2.1, h.2.2]

/-- R112: VEX bytes with another `mmmmm` or `pp`. -/
theorem decode_otherVex {m : Mode} {a16 : Bool} {ps : List Prefix} {b p : Byte} {t rest : List Byte}
    {v : VexFields} (hps : BeforeVex ps) (hm : m = .mode32 → field p 6 2 = 3#2)
    (hb : b = 0xC4#8 ∨ b = 0xC5#8) (hv : takeVex b (p :: t) = some (v, rest))
    (hrow : ¬(v.mmmmm = 1#5 ∧ v.pp = 1#2)) :
    decode m a16 (ps.map Prefix.byte ++ b :: p :: t) = .reject .outOfScope := by
  have h := decode_C4_C5 (m := m) (a16 := a16) (rex := none) (p :: t) hps.1 (fun _ => rfl) hb
  rw [rexBytes, List.append_nil] at h
  rw [h, decodeVex, vexRecognised_cons t hm, hv]
  simp [badBeforeVex_of_beforeVex hps, hrow]

/-- Settles O49, clause by clause along R115 step 3. -/
theorem otherOpcodesAreRefused : Obligations.OtherOpcodesAreRefused := by
  refine ⟨?_, ?_, ?_, ?_, ?_⟩
  · intro m a16 ps rex b t hd hrex hprefix h0F hC4 hC5 hrexByte
    have hnone : Prefix.ofByte? b = none :=
      Option.eq_none_iff_forall_ne_some.2 fun p hp => hprefix p (Prefix.byte_of_ofByte? hp).symm
    rw [decode_front t hd hrex fun hr =>
      ⟨hnone, fun hm => by simp [Rex.ofByte?, hrexByte hm hr]⟩]
    simp [decodeOpcode, h0F, hC4, hC5, hnone]
  · intro m a16 ps rex op t hd hrex hop
    rw [decode_0F _ hd hrex, decodeLegacy, ofOpcode?_eq_none hop]
  · intro m a16 ps p1 p2 t hps hm hfield
    refine decode_otherVex hps hm (.inl rfl) rfl ?_
    rintro ⟨hmmmmm, hpp⟩
    exact hfield.elim (absurd hmmmmm) (absurd hpp)
  · intro m a16 ps p t hps hm hpp
    exact decode_otherVex hps hm (.inr rfl) rfl fun h => hpp h.2
  · intro m a16 ps l v f op t hps hm hop
    rw [decode_vexBytes _ hps.1 (badBeforeVex_of_beforeVex hps) hm, decodeVexOpcode,
      ofOpcode?_eq_none hop]

/-! ### What `Mode32` alone refuses -/

theorem addr16Admitted_eq_false {ps : List Prefix} (h : .addrSize ∈ ps) :
    addr16Admitted .mode32 false ps = false := by
  simp [addr16Admitted, addr16, h]

theorem decodeOperands_not_admitted {m : Mode} {a16 : Bool} {ps : List Prefix}
    (h : addr16Admitted m a16 ps = false) (mk : BitVec 3 → RegMem → Instr) (t : List Byte) :
    decodeOperands m a16 ps mk t = .reject .addr16NotAdmitted := by
  simp [decodeOperands, h]

/-- Settles O50: LES and LDS before the VEX bytes are taken, the registers of D26 and the 67H of D17
after the opcode is known. -/
theorem mode32RefusesItsOtherEncodings : Obligations.Mode32RefusesItsOtherEncodings := by
  refine ⟨?_, ?_, ?_, ?_⟩
  · intro a16 ps b p t hd hb hp
    have h := decode_C4_C5 (m := .mode32) (a16 := a16) (rex := none) (p :: t) hd (fun _ => rfl) hb
    rw [rexBytes, List.append_nil] at h
    rw [h, decodeVex]
    simp [vexRecognised, hp]
  · intro a16 ps l v f w t hps hhigh hcause
    have hregs : vexRegistersOk .mode32 ⟨f, 1#5, v, l, 1#2⟩ = false := by
      rw [← Bool.not_eq_true]
      intro hok
      obtain ⟨hf, hv⟩ : f.plain = true ∧ bitAt v 3 = false := by simpa [vexRegistersOk] using hok
      rcases hcause with ⟨r, x, w', rfl⟩ | h8
      · simp [VexForm.plain] at hf
      · exact absurd ((bitAt_three_eq_false_iff v).1 hv) (by omega)
    rw [decode_vexBytes _ hps.1 (badBeforeVex_of_beforeVex hps) fun _ => hhigh,
      decodeVexOpcode_opcode, hregs]
    rfl
  · intro ps w t hd haddr hlock hrepne hrep
    have h := decode_0F (m := .mode32) (a16 := false) (rex := none) (w.opcode :: t) hd fun _ => rfl
    rw [rexBytes, List.append_nil] at h
    rw [h, decodeLegacy_opcode]
    simp [hlock, hrepne, hrep, decodeOperands_not_admitted (addr16Admitted_eq_false haddr)]
  · intro ps l v f w t hps haddr hf hv
    have hv3 := (bitAt_three_eq_false_iff v).2 hv
    have hregs : vexRegistersOk .mode32 ⟨f, 1#5, v, l, 1#2⟩ = true := by
      rw [vexRegistersOk, hf, hv3]; rfl
    rw [decode_vexBytes _ hps.1 (badBeforeVex_of_beforeVex hps)
        fun _ => vexBytes_high_bits l hf hv3,
      decodeVexOpcode_opcode, if_pos hregs]
    exact decodeOperands_not_admitted (addr16Admitted_eq_false haddr) _ t

end Sys2Proof
end

section
/-! The results of the MMX64 and VEX256 forms, and what follows from the lane sums for all twelve
(40_packed_add_common.md R131, R134, R137 to R139; 30_encoding.md R111; 70_reset_and_hazards.md
R227). -/

namespace Sys2Proof

theorem Width.bits_dvd_64 (w : Width) : w.bits ∣ 64 := by cases w <;> decide

theorem Width.bits_dvd_256 (w : Width) : w.bits ∣ 256 := by cases w <;> decide

namespace Machine

open Claims

/-! ### Reading a register after an update of something else -/

section

variable (s : State)

@[simp] theorem readMm_advance (m : Mode) (len : Nat) (i : BitVec 3) :
    (s.advance m len).readMm i = s.readMm i := rfl
@[simp] theorem readYmm_advance (m : Mode) (len : Nat) (i : BitVec 4) :
    (s.advance m len).readYmm i = s.readYmm i := rfl
@[simp] theorem readXmm_advance (m : Mode) (len : Nat) (i : BitVec 4) :
    (s.advance m len).readXmm i = s.readXmm i := rfl
@[simp] theorem readMm_touchX87 (i j : BitVec 3) : (s.touchX87 i).readMm j = s.readMm j := rfl

@[simp] theorem readYmm_writeXmmKeep (i : BitVec 4) (v : BitVec 128) :
    (s.writeXmmKeep i v).readYmm i = field (s.readYmm i) 128 128 ++ v := readYmm_writeYmm s i _
@[simp] theorem readYmm_writeXmmZero (i : BitVec 4) (v : BitVec 128) :
    (s.writeXmmZero i v).readYmm i = 0#128 ++ v := readYmm_writeYmm s i _

end

/-! ### The forms of a class through the class's operation -/

theorem mmxSource_eq_ok_iff (s : State) (m : Mode) (e : LegacyEnc) (rm : RegMem) (b : BitVec 64) :
    s.mmxSource m e rm = .ok b ↔ MmxOperand s m e rm b := by
  cases rm with
  | reg r => simp [State.mmxSource, MmxOperand, eq_comm]
  | mem f => exact memRead_eq_ok_iff s m .mmx64 _ 8 b

theorem ymmSource_eq_ok_iff (s : State) (m : Mode) (e : VexEnc) (rm : RegMem) (b : BitVec 256) :
    s.ymmSource m e rm = .ok b ↔ YmmOperand s m e rm b := by
  cases rm with
  | reg r => simp [State.ymmSource, YmmOperand, eq_comm]
  | mem f => exact memRead_eq_ok_iff s m .vex256 _ 32 b

theorem exec_mkMmx (w : Width) (e : LegacyEnc) (reg : BitVec 3) (rm : RegMem) (s : State) :
    exec (mkMmx w e reg rm) s = addMmx w e reg rm s := by cases w <;> rfl

theorem length_mkMmx (w : Width) (e : LegacyEnc) (reg : BitVec 3) (rm : RegMem) :
    (mkMmx w e reg rm).length = legacyLength e rm := by cases w <;> rfl

theorem exec_mkYmm (w : Width) (e : VexEnc) (reg : BitVec 3) (rm : RegMem) (s : State) :
    exec (mkYmm w e reg rm) s = addYmm w e reg rm s := by cases w <;> rfl

theorem length_mkYmm (w : Width) (e : VexEnc) (reg : BitVec 3) (rm : RegMem) :
    (mkYmm w e reg rm).length = vexLength e rm := by cases w <;> rfl

/-- The mask of `clearTop` has every bit but TOP's. -/
theorem topCleared_clearTop (status : BitVec 16) : TopCleared status (clearTop status) := by
  constructor
  · have hmask : ∀ j < 3, (0xC7FF#16).getLsbD (11 + j) = false := by decide
    apply BitVec.eq_of_getLsbD_eq
    intro j hj
    rw [BitVec.getLsbD_extractLsb', clearTop, BitVec.getLsbD_and, hmask j hj]
    simp
  · intro j hj
    have hmask : ∀ j < 16, j < 11 ∨ 14 ≤ j → (0xC7FF#16).getLsbD j = true := by decide
    rw [clearTop, BitVec.getLsbD_and]
    rcases Nat.lt_or_ge j 16 with h16 | h16
    · rw [hmask j h16 hj, Bool.and_true]
    · rw [BitVec.getLsbD_of_ge status j h16, Bool.false_and]

/-- The `MMX64` form of any width writes the lane sums and touches the x87 state (R134, R138). -/
theorem mmxAdds_mkMmx (w : Width) : MmxAdds (mkMmx w) w.bits := by
  intro s m e reg rm b hm hready hb
  have hsource := (mmxSource_eq_ok_iff s m e rm b).2 hb
  refine ⟨packedAdd w.bits (s.readMm reg) b, clearTop s.x87Status,
    lanesAdd_packedAdd w.bits_pos w.bits_dvd_64 _ _, topCleared_clearTop _, ?_⟩
  rw [exec_mkMmx, length_mkMmx]
  exact (addMmx_eq_next_iff w e reg rm s _).2 ⟨m, b, hm, hready, hsource, rfl⟩

/-- The `VEX256` form of any width writes the lane sums of all 256 bits (R137). -/
theorem ymmAdds_mkYmm (w : Width) : YmmAdds (mkYmm w) w.bits := by
  intro s m e reg rm b hm hready hb
  have hsource := (ymmSource_eq_ok_iff s m e rm b).2 hb
  refine ⟨packedAdd w.bits (s.readYmm e.vvvv) b,
    lanesAdd_packedAdd w.bits_pos w.bits_dvd_256 _ _, ?_⟩
  rw [exec_mkYmm, length_mkYmm]
  exact (addYmm_eq_next_iff w e reg rm s _).2 ⟨m, b, hm, hready, hsource, rfl⟩

/-- Settles O12: a lane of the sum is the sum of the two lanes. -/
theorem noLaneAffectsAnother : Obligations.NoLaneAffectsAnother := by
  intro w hw n hn a b c d k hk hac hbd
  have hsizes : ∀ w ∈ [8, 16, 32], ∀ n ∈ [64, 128, 256], 0 < w ∧ w ∣ n := by decide
  obtain ⟨hpos, hdvd⟩ := hsizes w hw n hn
  rw [lane_packedAdd hpos hdvd a b hk, lane_packedAdd hpos hdvd c d hk, hac, hbd]

/-- Settles O13, width by width. -/
theorem mmxFormsAddEveryLane : Obligations.MmxFormsAddEveryLane :=
  ⟨mmxAdds_mkMmx .byte, mmxAdds_mkMmx .word, mmxAdds_mkMmx .dword⟩

/-- Settles O16, width by width. -/
theorem vex256FormsAddAllLanes : Obligations.Vex256FormsAddAllLanes :=
  ⟨ymmAdds_mkYmm .byte, ymmAdds_mkYmm .word, ymmAdds_mkYmm .dword⟩

/-! ### One register as both sources (R139) -/

theorem lane_packedAdd_self {n w k : Nat} (hw : 0 < w) (hn : w ∣ n) (a : BitVec n)
    (hk : k < n / w) :
    (lane w (packedAdd w a a) k).toNat = 2 * (lane w a k).toNat % 2 ^ w := by
  rw [lane_packedAdd hw hn a a hk, BitVec.toNat_add, Nat.two_mul]

section

variable {w : Width} {reg j : BitVec 3} {s t : State} {k : Nat}

theorem addMmx_doubles {e : LegacyEnc} (h : addMmx w e reg (.reg reg) s = .next t)
    (hk : k < 64 / w.bits) :
    (lane w.bits (t.readMm reg) k).toNat =
      2 * (lane w.bits (s.readMm reg) k).toNat % 2 ^ w.bits := by
  obtain ⟨m, b, -, -, hb, rfl⟩ := (addMmx_eq_next_iff w e reg _ s t).1 h
  cases hb
  simpa using lane_packedAdd_self w.bits_pos w.bits_dvd_64 (s.readMm reg) hk

theorem addSse_doubles {e : LegacyEnc} (h : addSse w e reg (.reg j) s = .next t)
    (hj : extend3 (rexB e) j = extend3 (rexR e) reg) (hk : k < 128 / w.bits) :
    (lane w.bits (t.readXmm (extend3 (rexR e) reg)) k).toNat =
      2 * (lane w.bits (s.readXmm (extend3 (rexR e) reg)) k).toNat % 2 ^ w.bits := by
  obtain ⟨m, b, -, -, hb, rfl⟩ := (addSse_eq_next_iff w e reg _ s t).1 h
  cases hb
  rw [readXmm_advance, readXmm_writeXmmKeep, hj]
  exact lane_packedAdd_self w.bits_pos w.bits_dvd_128 _ hk

theorem addXmm_doubles {e : VexEnc} (h : addXmm w e reg (.reg j) s = .next t)
    (hj : extend3 (vexB e) j = e.vvvv) (hk : k < 128 / w.bits) :
    (lane w.bits (t.readXmm (extend3 (vexR e) reg)) k).toNat =
      2 * (lane w.bits (s.readXmm e.vvvv) k).toNat % 2 ^ w.bits := by
  obtain ⟨m, b, -, -, hb, rfl⟩ := (addXmm_eq_next_iff w e reg _ s t).1 h
  cases hb
  rw [readXmm_advance, readXmm_writeXmmZero, hj]
  exact lane_packedAdd_self w.bits_pos w.bits_dvd_128 _ hk

theorem addYmm_doubles {e : VexEnc} (h : addYmm w e reg (.reg j) s = .next t)
    (hj : extend3 (vexB e) j = e.vvvv) (hk : k < 256 / w.bits) :
    (lane w.bits (t.readYmm (extend3 (vexR e) reg)) k).toNat =
      2 * (lane w.bits (s.readYmm e.vvvv) k).toNat % 2 ^ w.bits := by
  obtain ⟨m, b, -, -, hb, rfl⟩ := (addYmm_eq_next_iff w e reg _ s t).1 h
  cases hb
  rw [readYmm_advance, readYmm_writeYmm, hj]
  exact lane_packedAdd_self w.bits_pos w.bits_dvd_256 _ hk

end

/-- Settles O17, class by class: a lane of the sum of a value with itself is the lane doubled. -/
theorem sameSourceTwiceDoublesEveryLane : Obligations.SameSourceTwiceDoublesEveryLane := by
  intro i s t hsame h k hk
  cases i with
  | paddbMmx e r rm | paddwMmx e r rm | padddMmx e r rm =>
    obtain rfl := hsame
    exact addMmx_doubles h hk
  | paddbSse e r rm | paddwSse e r rm | padddSse e r rm =>
    obtain ⟨j, rfl, hj⟩ := hsame
    exact addSse_doubles h hj hk
  | vpaddbXmm e r rm | vpaddwXmm e r rm | vpadddXmm e r rm =>
    obtain ⟨j, rfl, hj⟩ := hsame
    exact addXmm_doubles h hj hk
  | vpaddbYmm e r rm | vpaddwYmm e r rm | vpadddYmm e r rm =>
    obtain ⟨j, rfl, hj⟩ := hsame
    exact addYmm_doubles h hj hk

/-! ### A legacy form beside its VEX.128 form (R227) -/

theorem readYmm_writeXmm_of_ne (s : State) {i j : BitVec 4} (h : j ≠ i) (v : BitVec 128) :
    (s.writeXmmKeep i v).readYmm j = s.readYmm j ∧ (s.writeXmmZero i v).readYmm j = s.readYmm j :=
  ⟨readYmm_writeYmm_of_ne s h _, readYmm_writeYmm_of_ne s h _⟩

theorem addSse_addXmm_same_registers {w : Width} {s t u : State} {e : LegacyEnc} {v : VexEnc}
    {reg r : BitVec 3} (hR : vexR v = rexR e) (hB : vexB v = rexB e)
    (hvvvv : v.vvvv = extend3 (rexR e) reg) (ht : addSse w e reg (.reg r) s = .next t)
    (hu : addXmm w v reg (.reg r) s = .next u) :
    t.readXmm (extend3 (rexR e) reg) = u.readXmm (extend3 (rexR e) reg) ∧
    field (t.readYmm (extend3 (rexR e) reg)) 128 128 =
      field (s.readYmm (extend3 (rexR e) reg)) 128 128 ∧
    field (u.readYmm (extend3 (rexR e) reg)) 128 128 = 0#128 ∧
    ∀ j, j ≠ extend3 (rexR e) reg → t.readYmm j = u.readYmm j := by
  obtain ⟨m, b, -, -, hb, rfl⟩ := (addSse_eq_next_iff w e reg _ s t).1 ht
  obtain ⟨m', b', -, -, hb', rfl⟩ := (addXmm_eq_next_iff w v reg _ s u).1 hu
  cases hb
  cases hb'
  rw [hR, hB, hvvvv]
  simp only [readXmm_advance, readYmm_advance, readXmm_writeXmmKeep, readXmm_writeXmmZero,
    readYmm_writeXmmKeep, readYmm_writeXmmZero, field_high_append, true_and]
  intro j hj
  rw [(readYmm_writeXmm_of_ne s hj _).1, (readYmm_writeXmm_of_ne s hj _).2]

/-- Settles O18, width by width. -/
theorem legacyAndVexDifferInTheUpperHalfOnly :
    Obligations.LegacyAndVexDifferInTheUpperHalfOnly := by
  intro s t u e v reg r hR hB hvvvv h
  obtain ⟨ht, hu⟩ | ⟨ht, hu⟩ | ⟨ht, hu⟩ := h
  · exact addSse_addXmm_same_registers (w := .byte) hR hB hvvvv ht hu
  · exact addSse_addXmm_same_registers (w := .word) hR hB hvvvv ht hu
  · exact addSse_addXmm_same_registers (w := .dword) hR hB hvvvv ht hu

/-! ### Ignored bits, and two-byte VEX (R103, R104, R111) -/

/-- An `MMX64` form reads REX.X and REX.B for a memory operand only, and REX.R never. -/
theorem addMmx_rex {w : Width} {ps : List Prefix} {rex rex' : Rex} {reg : BitVec 3} {rm : RegMem}
    {s : State} (h : ∀ f, rm = .mem f → rex.x = rex'.x ∧ rex.b = rex'.b) :
    addMmx w ⟨ps, some rex⟩ reg rm s = addMmx w ⟨ps, some rex'⟩ reg rm s := by
  have hsource (m : Mode) : s.mmxSource m ⟨ps, some rex⟩ rm = s.mmxSource m ⟨ps, some rex'⟩ rm := by
    cases rm with
    | reg r => rfl
    | mem f =>
      obtain ⟨hx, hb⟩ := h f rfl
      simp only [State.mmxSource, rexX, rexB, hx, hb]
      rfl
  simp only [addMmx, hsource]
  rfl

/-- Settles O19: no class reads W, and the MMX64 class reads of REX what `addMmx_rex` says. -/
theorem ignoredBitsChangeNothing : Obligations.IgnoredBitsChangeNothing := by
  refine ⟨?_, ?_, ?_⟩
  · intro ps r x b w w' v reg rm s mk hmk
    simp only [List.mem_cons, List.not_mem_nil, or_false] at hmk
    obtain rfl | rfl | rfl | rfl | rfl | rfl := hmk <;> rfl
  · intro ps r x b w w' reg rm s mk hmk
    simp only [List.mem_cons, List.not_mem_nil, or_false] at hmk
    obtain rfl | rfl | rfl | rfl | rfl | rfl := hmk <;> rfl
  · intro ps rex rex' reg rm s mk hmk h
    simp only [List.mem_cons, List.not_mem_nil, or_false] at hmk
    obtain rfl | rfl | rfl := hmk <;> exact addMmx_rex h

theorem wrap_add_wrap (m : Mode) (a b : Word64) : wrap m (wrap m a + b) = wrap m (a + b) := by
  cases m with
  | mode64 => rfl
  | mode32 =>
    apply BitVec.eq_of_toNat_eq
    simp only [wrap, BitVec.toNat_setWidth, BitVec.toNat_add]
    omega

theorem nextIp_add_one (s : State) (m : Mode) (n : Nat) :
    wrap m (s.nextIp m n + 1#64) = s.nextIp m (n + 1) := by
  rw [State.nextIp, wrap_add_wrap, State.nextIp, BitVec.add_assoc, ← BitVec.ofNat_add]

theorem advance_add_one (s : State) (m : Mode) (n : Nat) :
    { s.advance m n with ip := wrap m ((s.advance m n).ip + 1#64) } = s.advance m (n + 1) := by
  rw [advance_ip, nextIp_add_one]
  rfl

theorem vexLength_three (ps : List Prefix) (r x b w : Bool) (v : BitVec 4) (rm : RegMem) :
    vexLength ⟨ps, .three r x b w, v⟩ rm = vexLength ⟨ps, .two r, v⟩ rm + 1 := by
  simp only [vexLength, VexForm.length]
  omega

section

variable {w : Width} {s t : State} {m : Mode} {ps : List Prefix} {r : Bool} {v : BitVec 4}
  {reg j : BitVec 3}

theorem addXmm_three (hm : s.mode = .ok m)
    (h : addXmm w ⟨ps, .two r, v⟩ reg (.reg j) s = .next t) :
    addXmm w ⟨ps, .three r false false false, v⟩ reg (.reg j) s =
      .next { t with ip := wrap m (t.ip + 1#64) } := by
  obtain ⟨m', b, hm', hready, hb, rfl⟩ := (addXmm_eq_next_iff _ _ _ _ s t).1 h
  obtain rfl : m' = m := Except.ok.inj (hm'.symm.trans hm)
  rw [advance_add_one, ← vexLength_three ps r false false false]
  exact (addXmm_eq_next_iff _ _ _ _ s _).2 ⟨m', b, hm, hready, hb, rfl⟩

theorem addYmm_three (hm : s.mode = .ok m)
    (h : addYmm w ⟨ps, .two r, v⟩ reg (.reg j) s = .next t) :
    addYmm w ⟨ps, .three r false false false, v⟩ reg (.reg j) s =
      .next { t with ip := wrap m (t.ip + 1#64) } := by
  obtain ⟨m', b, hm', hready, hb, rfl⟩ := (addYmm_eq_next_iff _ _ _ _ s t).1 h
  obtain rfl : m' = m := Except.ok.inj (hm'.symm.trans hm)
  rw [advance_add_one, ← vexLength_three ps r false false false]
  exact (addYmm_eq_next_iff _ _ _ _ s _).2 ⟨m', b, hm, hready, hb, rfl⟩

end

/-- Settles O20: the two forms read the same registers and bits, and one is a byte longer. -/
theorem twoByteVexAbbreviatesThreeByte : Obligations.TwoByteVexAbbreviatesThreeByte := by
  intro s t m ps r v reg j hm mk hmk h
  simp only [List.mem_cons, List.not_mem_nil, or_false] at hmk
  obtain rfl | rfl | rfl | rfl | rfl | rfl := hmk
  · exact addXmm_three hm h
  · exact addXmm_three hm h
  · exact addXmm_three hm h
  · exact addYmm_three hm h
  · exact addYmm_three hm h
  · exact addYmm_three hm h

end Machine

end Sys2Proof
end

section
/-! What a completed instruction changes, and which state decides what it answers (10_state.md
R20 to R34; 20_memory.md R52; 60_exceptions.md R194). -/

namespace Sys2Proof.Machine

open Claims

/-! ### Frames -/

/-- A completed `MMX64` form wrote one MMX register, touched the x87 state and advanced. -/
theorem exec_mmx_eq_next {i : Instr} {s t : State} (hcls : i.cls = .mmx64)
    (h : exec i s = .next t) :
    ∃ m v, s.mode = .ok m ∧ t = ((s.writeMm i.reg v).touchX87 i.reg).advance m i.length := by
  cases i with
  | paddbMmx e reg rm | paddwMmx e reg rm | padddMmx e reg rm =>
    obtain ⟨m, b, hm, -, -, rfl⟩ := (addMmx_eq_next_iff _ e reg rm s t).1 h
    exact ⟨m, _, hm, rfl⟩
  | paddbSse | paddwSse | padddSse | vpaddbXmm | vpaddwXmm | vpadddXmm | vpaddbYmm | vpaddwYmm
  | vpadddYmm => cases hcls

/-- A completed form on XMM or YMM registers wrote one YMM register and advanced. -/
theorem exec_vector_eq_next {i : Instr} {s t : State} (hcls : i.cls ≠ .mmx64)
    (h : exec i s = .next t) :
    ∃ m v, s.mode = .ok m ∧ t = (s.writeYmm (dest i) v).advance m i.length := by
  cases i with
  | paddbMmx | paddwMmx | padddMmx => exact absurd rfl hcls
  | paddbSse e reg rm | paddwSse e reg rm | padddSse e reg rm =>
    obtain ⟨m, b, hm, -, -, rfl⟩ := (addSse_eq_next_iff _ e reg rm s t).1 h
    exact ⟨m, _, hm, rfl⟩
  | vpaddbXmm e reg rm | vpaddwXmm e reg rm | vpadddXmm e reg rm =>
    obtain ⟨m, b, hm, -, -, rfl⟩ := (addXmm_eq_next_iff _ e reg rm s t).1 h
    exact ⟨m, _, hm, rfl⟩
  | vpaddbYmm e reg rm | vpaddwYmm e reg rm | vpadddYmm e reg rm =>
    obtain ⟨m, b, hm, -, -, rfl⟩ := (addYmm_eq_next_iff _ e reg rm s t).1 h
    exact ⟨m, _, hm, rfl⟩

/-- What every completed instruction does outside the vector and x87 registers: it advances `ip` by
its length and leaves the rest. -/
theorem exec_eq_next_frame {i : Instr} {s t : State} (h : exec i s = .next t) :
    SameSurroundings s t ∧ t.mem = s.mem ∧ t.mode = s.mode ∧
      ∃ m, s.mode = .ok m ∧ t.ip = s.nextIp m i.length := by
  by_cases hcls : i.cls = .mmx64
  · obtain ⟨m, v, hm, rfl⟩ := exec_mmx_eq_next hcls h
    exact ⟨by simp [SameSurroundings], rfl, rfl, m, hm, rfl⟩
  · obtain ⟨m, v, hm, rfl⟩ := exec_vector_eq_next hcls h
    exact ⟨by simp [SameSurroundings], rfl, rfl, m, hm, rfl⟩

/-- Settles O21: the one MMX register, its x87 high part, TOP, the tags and `ip` are all that is
written. -/
theorem mmxFormsFrame : Obligations.MmxFormsFrame := by
  intro i s t hcls h
  refine ⟨(exec_eq_next_frame h).1, ?_⟩
  obtain ⟨m, v, -, rfl⟩ := exec_mmx_eq_next hcls h
  refine ⟨fun j => rfl, fun j hj => ⟨readMm_writeMm_of_ne s hj v, ?_⟩,
    (topCleared_clearTop s.x87Status).2⟩
  exact Vector.getElem_set_ne i.reg.isLt j.isLt fun heq => hj (BitVec.eq_of_toNat_eq heq.symm)

/-- Settles O22: one YMM register and `ip` are all that is written. -/
theorem vectorFormsFrame : Obligations.VectorFormsFrame := by
  intro i s t hcls h
  refine ⟨(exec_eq_next_frame h).1, ?_⟩
  obtain ⟨m, v, -, rfl⟩ := exec_vector_eq_next hcls h
  exact ⟨fun j => rfl, rfl, rfl, rfl, fun j hj => readYmm_writeYmm_of_ne s hj v⟩

/-! ### The order of R140, said once for all twelve forms -/

/-- What the four classes share (R140): the mode, the checks of class `c`, the second source, and
the effect of its value. -/
def classOp {α : Type} (c : EncClass) (source : State → Mode → Except Fault α)
    (effect : State → Mode → α → State) (s : State) : Result :=
  match s.mode with
  | .error o => .refused (.modeOutOfScope o)
  | .ok m =>
    match checks c s with
    | some f => raise f
    | none =>
      match source s m with
      | .error f => raise f
      | .ok b => .next (effect s m b)

theorem addMmx_eq_classOp (w : Width) (e : LegacyEnc) (reg : BitVec 3) (rm : RegMem) (s : State) :
    addMmx w e reg rm s = classOp .mmx64 (fun s m => s.mmxSource m e rm) (fun s m b =>
      ((s.writeMm reg (packedAdd w.bits (s.readMm reg) b)).touchX87 reg).advance m
        (legacyLength e rm)) s := by
  cases hm : s.mode with
  | error o => simp only [addMmx, classOp, hm]
  | ok m =>
    cases hc : checks .mmx64 s <;> cases hb : s.mmxSource m e rm <;>
      simp only [addMmx, classOp, hm, hc, hb]

theorem addSse_eq_classOp (w : Width) (e : LegacyEnc) (reg : BitVec 3) (rm : RegMem) (s : State) :
    addSse w e reg rm s = classOp .sse128 (fun s m => s.sseSource m e rm) (fun s m b =>
      (s.writeXmmKeep (extend3 (rexR e) reg)
        (packedAdd w.bits (s.readXmm (extend3 (rexR e) reg)) b)).advance m
          (legacyLength e rm)) s := by
  cases hm : s.mode with
  | error o => simp only [addSse, classOp, hm]
  | ok m =>
    cases hc : checks .sse128 s <;> cases hb : s.sseSource m e rm <;>
      simp only [addSse, classOp, hm, hc, hb]

theorem addXmm_eq_classOp (w : Width) (e : VexEnc) (reg : BitVec 3) (rm : RegMem) (s : State) :
    addXmm w e reg rm s = classOp .vex128 (fun s m => s.xmmSource m e rm) (fun s m b =>
      (s.writeXmmZero (extend3 (vexR e) reg)
        (packedAdd w.bits (s.readXmm e.vvvv) b)).advance m (vexLength e rm)) s := by
  cases hm : s.mode with
  | error o => simp only [addXmm, classOp, hm]
  | ok m =>
    cases hc : checks .vex128 s <;> cases hb : s.xmmSource m e rm <;>
      simp only [addXmm, classOp, hm, hc, hb]

theorem addYmm_eq_classOp (w : Width) (e : VexEnc) (reg : BitVec 3) (rm : RegMem) (s : State) :
    addYmm w e reg rm s = classOp .vex256 (fun s m => s.ymmSource m e rm) (fun s m b =>
      (s.writeYmm (extend3 (vexR e) reg)
        (packedAdd w.bits (s.readYmm e.vvvv) b)).advance m (vexLength e rm)) s := by
  cases hm : s.mode with
  | error o => simp only [addYmm, classOp, hm]
  | ok m =>
    cases hc : checks .vex256 s <;> cases hb : s.ymmSource m e rm <;>
      simp only [addYmm, classOp, hm, hc, hb]

/-- The value of register `j` as the second source of an instruction's class (R134 to R137). -/
def registerSource (s : State) (j : BitVec 3) : (i : Instr) → BitVec (8 * operandBytes i.cls)
  | .paddbMmx _ _ _ | .paddwMmx _ _ _ | .padddMmx _ _ _ => s.readMm j
  | .paddbSse e _ _ | .paddwSse e _ _ | .padddSse e _ _ => s.readXmm (extend3 (rexB e) j)
  | .vpaddbXmm e _ _ | .vpaddwXmm e _ _ | .vpadddXmm e _ _ => s.readXmm (extend3 (vexB e) j)
  | .vpaddbYmm e _ _ | .vpaddwYmm e _ _ | .vpadddYmm e _ _ => s.readYmm (extend3 (vexB e) j)

/-- The second source of an instruction: a register, or the memory at its operand's place (R105). -/
def secondSource (i : Instr) (s : State) (m : Mode) :
    Except Fault (BitVec (8 * operandBytes i.cls)) :=
  match i.rm with
  | .reg j => .ok (registerSource s j i)
  | .mem f => s.memRead m i.cls (operandPlace s m f i) (operandBytes i.cls)

/-- The state after an instruction, of element width `w`, whose second source has a value. -/
def sumEffect (w : Width) : (i : Instr) → State → Mode → BitVec (8 * operandBytes i.cls) → State
  | .paddbMmx e r rm | .paddwMmx e r rm | .padddMmx e r rm => fun s m b =>
    ((s.writeMm r (packedAdd w.bits (s.readMm r) b)).touchX87 r).advance m (legacyLength e rm)
  | .paddbSse e r rm | .paddwSse e r rm | .padddSse e r rm => fun s m b =>
    (s.writeXmmKeep (extend3 (rexR e) r)
      (packedAdd w.bits (s.readXmm (extend3 (rexR e) r)) b)).advance m (legacyLength e rm)
  | .vpaddbXmm e r rm | .vpaddwXmm e r rm | .vpadddXmm e r rm => fun s m b =>
    (s.writeXmmZero (extend3 (vexR e) r) (packedAdd w.bits (s.readXmm e.vvvv) b)).advance m
      (vexLength e rm)
  | .vpaddbYmm e r rm | .vpaddwYmm e r rm | .vpadddYmm e r rm => fun s m b =>
    (s.writeYmm (extend3 (vexR e) r) (packedAdd w.bits (s.readYmm e.vvvv) b)).advance m
      (vexLength e rm)

/-- The meaning of every form is its class's operation on its own source and effect. -/
theorem exec_eq_classOp (i : Instr) (s : State) :
    exec i s = classOp i.cls (secondSource i) (sumEffect i.width i) s := by
  cases i with
  | paddbMmx e r rm | paddwMmx e r rm | padddMmx e r rm =>
    cases rm with
    | reg j => exact addMmx_eq_classOp _ e r (.reg j) s
    | mem f => exact addMmx_eq_classOp _ e r (.mem f) s
  | paddbSse e r rm | paddwSse e r rm | padddSse e r rm =>
    cases rm with
    | reg j => exact addSse_eq_classOp _ e r (.reg j) s
    | mem f => exact addSse_eq_classOp _ e r (.mem f) s
  | vpaddbXmm e r rm | vpaddwXmm e r rm | vpadddXmm e r rm =>
    cases rm with
    | reg j => exact addXmm_eq_classOp _ e r (.reg j) s
    | mem f => exact addXmm_eq_classOp _ e r (.mem f) s
  | vpaddbYmm e r rm | vpaddwYmm e r rm | vpadddYmm e r rm =>
    cases rm with
    | reg j => exact addYmm_eq_classOp _ e r (.reg j) s
    | mem f => exact addYmm_eq_classOp _ e r (.mem f) s

section

variable {α : Type} {c : EncClass} {source : State → Mode → Except Fault α}
  {effect : State → Mode → α → State} {s : State}

theorem classOp_eq_next_iff {t : State} : classOp c source effect s = .next t ↔
    ∃ m b, s.mode = .ok m ∧ Ready c s ∧ source s m = .ok b ∧ t = effect s m b := by
  simp only [← checks_eq_none_iff, classOp, raise]
  constructor
  · intro h
    split at h <;> try contradiction
    next m hm =>
      split at h <;> try contradiction
      next hc =>
        split at h <;> try contradiction
        next b hb => cases h; exact ⟨m, b, hm, hc, hb, rfl⟩
  · rintro ⟨m, b, hm, hc, hb, rfl⟩
    simp only [hm, hc, hb]

theorem classOp_of_mode_error {o : OtherMode} (h : s.mode = .error o) :
    classOp c source effect s = .refused (.modeOutOfScope o) := by
  simp only [classOp, h]

theorem classOp_of_source_error {m : Mode} {f : Fault} (hm : s.mode = .ok m) (hready : Ready c s)
    (h : source s m = .error f) : classOp c source effect s = .fault f := by
  simp only [classOp, hm, (checks_eq_none_iff c s).2 hready, h, raise]

/-- An answer with its next state mapped, a stop kept. -/
def mapNext (f : State → State) : Result → Result
  | .next s => .next (f s)
  | o => o

/-- A change of state that neither the mode nor the checks nor the source see, and that the effect
keeps, changes nothing else in the answer. -/
theorem classOp_map {f : State → State} (hmode : (f s).mode = s.mode)
    (hchecks : checks c (f s) = checks c s) (hsource : ∀ m, source (f s) m = source s m)
    (heffect : ∀ m b, effect (f s) m b = f (effect s m b)) :
    classOp c source effect (f s) = mapNext f (classOp c source effect s) := by
  simp only [classOp, hmode, hchecks, hsource, heffect]
  cases s.mode with
  | error o => rfl
  | ok m =>
    cases checks c s with
    | some x => rfl
    | none =>
      dsimp only
      cases source s m <;> rfl

end

theorem secondSource_of_reg {i : Instr} {j : BitVec 3} (h : i.rm = .reg j) (s : State) (m : Mode) :
    secondSource i s m = .ok (registerSource s j i) := by
  rw [secondSource, h]

theorem secondSource_of_mem {i : Instr} {f : MemForm} (h : i.rm = .mem f) (s : State) (m : Mode) :
    secondSource i s m =
      s.memRead m i.cls (operandPlace s m f i) (operandBytes i.cls) := by
  rw [secondSource, h]

/-! ### EFLAGS and MXCSR -/

def withFlags (flags mxcsr : BitVec 32) (s : State) : State :=
  { s with eflags := flags, mxcsr := mxcsr }

section

variable {s : State} {flags : BitVec 32} (mxcsr : BitVec 32)
  (h17 : bitAt flags 17 = bitAt s.eflags 17) (h18 : bitAt flags 18 = bitAt s.eflags 18)

include h17 in
theorem mode_withFlags : (withFlags flags mxcsr s).mode = s.mode := by
  have hvm : (withFlags flags mxcsr s).flagVM = s.flagVM := h17
  simp only [State.mode, hvm]
  rfl

include h18 in
theorem memRead_withFlags (m : Mode) (c : EncClass) (p : Place) (n : Nat) :
    (withFlags flags mxcsr s).memRead m c p n = s.memRead m c p n := by
  have hac : (withFlags flags mxcsr s).alignmentChecking = s.alignmentChecking := by
    have : (withFlags flags mxcsr s).flagAC = s.flagAC := h18
    simp only [State.alignmentChecking, this]
    rfl
  simp only [State.memRead, State.checks8, hac]
  rfl

include h18 in
theorem secondSource_withFlags (i : Instr) (m : Mode) :
    secondSource i (withFlags flags mxcsr s) m = secondSource i s m := by
  cases hrm : i.rm with
  | reg j =>
    rw [secondSource_of_reg hrm, secondSource_of_reg hrm]
    cases i <;> rfl
  | mem f =>
    have hplace : operandPlace (withFlags flags mxcsr s) m f i = operandPlace s m f i := by
      cases i <;> rfl
    rw [secondSource_of_mem hrm, secondSource_of_mem hrm, hplace, memRead_withFlags mxcsr h18]

theorem sumEffect_withFlags (w : Width) (i : Instr) (m : Mode)
    (b : BitVec (8 * operandBytes i.cls)) :
    sumEffect w i (withFlags flags mxcsr s) m b = withFlags flags mxcsr (sumEffect w i s m b) := by
  cases i <;> rfl

end

/-- Settles O24: the mode reads VM, the operand checks read AC, and nothing reads another flag or
MXCSR. -/
theorem flagsDecideNoOutcome : Obligations.FlagsDecideNoOutcome := by
  intro i s flags mxcsr h17 h18
  have hmap : exec i (withFlags flags mxcsr s) = mapNext (withFlags flags mxcsr) (exec i s) := by
    rw [exec_eq_classOp, exec_eq_classOp]
    exact classOp_map (mode_withFlags mxcsr h17) rfl (secondSource_withFlags mxcsr h18 i)
      (sumEffect_withFlags mxcsr i.width i)
  refine hmap.trans ?_
  cases exec i s <;> rfl

/-! ### The privilege level -/

def withSelector (selector : BitVec 16) (s : State) : State := { s with csSelector := selector }

/-- With alignment checking off the code selector decides no read that succeeds. -/
theorem memRead_withSelector {s : State} (selector : BitVec 16)
    (hoff : bitAt s.cr0 18 = false ∨ bitAt s.eflags 18 = false) {m : Mode} {c : EncClass}
    {p : Place} {n : Nat} {v : BitVec (8 * n)} (h : s.memRead m c p n = .ok v) :
    (withSelector selector s).memRead m c p n = .ok v := by
  have hcheck : (withSelector selector s).alignmentChecking = false := by
    simp only [State.alignmentChecking, State.crAM, State.flagAC, withSelector]
    rcases hoff with hoff | hoff <;> simp only [hoff, Bool.false_and, Bool.and_false]
  obtain ⟨hlegal, h16, -, hholds⟩ := (memRead_eq_ok_iff s m c p n v).1 h
  exact (memRead_eq_ok_iff _ m c p n v).2
    ⟨hlegal, h16, fun _ hon => absurd hon (by simp [hcheck]), hholds⟩

theorem secondSource_withSelector {s : State} (selector : BitVec 16)
    (hoff : bitAt s.cr0 18 = false ∨ bitAt s.eflags 18 = false) {i : Instr} {m : Mode}
    {b : BitVec (8 * operandBytes i.cls)} (h : secondSource i s m = .ok b) :
    secondSource i (withSelector selector s) m = .ok b := by
  cases hrm : i.rm with
  | reg j =>
    rw [secondSource_of_reg hrm] at h ⊢
    rw [← h]
    cases i <;> rfl
  | mem f =>
    have hplace : operandPlace (withSelector selector s) m f i = operandPlace s m f i := by
      cases i <;> rfl
    rw [secondSource_of_mem hrm] at h ⊢
    rw [hplace]
    exact memRead_withSelector selector hoff h

theorem sumEffect_withSelector (selector : BitVec 16) (s : State) (w : Width) (i : Instr) (m : Mode)
    (b : BitVec (8 * operandBytes i.cls)) : sumEffect w i (withSelector selector s) m b =
      withSelector selector (sumEffect w i s m b) := by
  cases i <;> rfl

/-- Settles O25: the mode, the checks and, with alignment checking off, the source do not read the
selector. -/
theorem privilegeLevelChangesNoResult : Obligations.PrivilegeLevelChangesNoResult := by
  intro i s t selector hoff h
  rw [exec_eq_classOp] at h ⊢
  obtain ⟨m, b, hm, hready, hb, rfl⟩ := classOp_eq_next_iff.1 h
  exact classOp_eq_next_iff.2 ⟨m, b, hm, hready, secondSource_withSelector selector hoff hb,
    (sumEffect_withSelector selector s i.width i m b).symm⟩

end Sys2Proof.Machine
end

section
/-! The faults of an instruction: the checks before the operands, the read of a memory operand, and
the modes out of scope (00_scope.md D1; 60_exceptions.md R181 to R189). -/

namespace Sys2Proof.Machine

open Claims

/-! ### The checks before the operands -/

theorem avxStateEnabled_iff (s : State) :
    s.avxStateEnabled = true ↔ bitAt s.xcr0 1 = true ∧ bitAt s.xcr0 2 = true := by
  rw [State.avxStateEnabled, decide_eq_true_iff]
  constructor
  · intro h
    have hbit (j : Nat) := congrArg (BitVec.getLsbD · j) h
    exact ⟨by simpa using hbit 0, by simpa using hbit 1⟩
  · rintro ⟨h1, h2⟩
    apply BitVec.eq_of_getLsbD_eq
    intro j hj
    obtain rfl | rfl : j = 0 ∨ j = 1 := by omega
    · simpa using h1
    · simpa using h2

/-- `InvalidHere` is the #UD condition the checks evaluate. -/
theorem invalidHere_iff (c : EncClass) (s : State) :
    InvalidHere c s ↔ (!available c s || environmentUD c s) = true := by
  cases c with
  | mmx64 => simp [InvalidHere, available, environmentUD, State.crEM]
  | sse128 => simp [InvalidHere, available, environmentUD, State.crEM, State.osfxsr]
  | vex128 =>
    rw [InvalidHere, ← avxStateEnabled_iff]
    simp [available, environmentUD, State.osxsave]
  | vex256 =>
    rw [InvalidHere, ← avxStateEnabled_iff]
    simp [available, environmentUD, State.osxsave, or_assoc]

/-- Settles O26: `checks` tests the three conditions in this order, and its fault is the
instruction's. -/
theorem checksFaultInOrder : Obligations.ChecksFaultInOrder := by
  intro i s m hm
  simp only [invalidHere_iff]
  have hfault {f : Fault} (h : checks i.cls s = some f) : exec i s = .fault f :=
    exec_eq_fault_of_checks hm h
  refine ⟨fun hud => hfault ?_, fun hok hts => hfault ?_, fun hok hts hcls hmf => hfault ?_⟩
  · rw [checks, if_pos hud]
  · rw [checks, if_neg hok]
    exact if_pos hts
  · rw [checks, if_neg hok, State.crTS, hts, hcls]
    exact if_pos hmf

/-- Settles O42: every form asks for a mode in scope first, and so does the step. -/
theorem modesOutOfScopeAreRefused : Obligations.ModesOutOfScopeAreRefused := by
  intro s o h
  exact ⟨by simp only [step, h], fun i => (exec_eq_classOp i s).trans (classOp_of_mode_error h)⟩

/-- Settles O27: the encoder's VEX bytes with `L = 1` are read back as the row of R100 that needs
AVX2. -/
theorem vexL1NeedsAvx2 : Obligations.VexL1NeedsAvx2 := by
  intro s m w e reg rm rest hm he hrm
  have hcls : (mkYmm w e reg rm).cls = .vex256 := by cases w <;> rfl
  have hdecode := decode_encodeVex true w reg rest
    (show vexWf m s.cpu.admit16 e rm = true by rw [vexWf, he, hrm]; rfl)
  refine ⟨mkYmm w e reg rm, hdecode, hcls, fun hno => ?_, fun _ hready b hb => ?_⟩
  · refine exec_eq_fault_of_checks hm ?_
    simp [hcls, checks, available, hno]
  · have hsource := (ymmSource_eq_ok_iff s m e rm b).2 hb
    rw [exec_mkYmm]
    exact ⟨_, (addYmm_eq_next_iff w e reg rm s _).2 ⟨m, b, hm, hready, hsource, rfl⟩⟩

/-! ### The faults of a memory operand -/

/-- A fault of the operand's read is the instruction's, its class being ready. -/
theorem exec_eq_fault_of_memRead {i : Instr} {f : MemForm} {s : State} {m : Mode} {x : Fault}
    (hm : s.mode = .ok m) (hready : Ready i.cls s) (hrm : i.rm = .mem f)
    (h : s.memRead m i.cls (operandPlace s m f i) (operandBytes i.cls) = .error x) :
    exec i s = .fault x := by
  rw [exec_eq_classOp]
  exact classOp_of_source_error hm hready ((secondSource_of_mem hrm s m).trans h)

section

variable {s : State} {m : Mode} {c : EncClass} {p : Place} {n : Nat}

theorem memRead_of_illegal (h : s.legal m p n = false) :
    s.memRead m c p n = .error (segmentFault p.seg) := by
  simp [State.memRead, h]

theorem memRead_of_misaligned16 (hlegal : s.legal m p n = true) (hc : c = .sse128)
    (h : p.lin.toNat % 16 ≠ 0) : s.memRead m c p n = .error .generalProtection := by
  simp [State.memRead, hlegal, needs16, hc, h]

/-- The operand is misaligned under alignment checking, as `MemRead` tests it. -/
theorem checkedMisaligned_iff (c : EncClass) (s : State) (lin : Word64) :
    CheckedMisaligned c s lin ↔ (s.checks8 c && lin.toNat % 8 != 0) = true := by
  have hcpl : (field s.csSelector 0 2 = 3#2) = (s.cpl = 3#2) := rfl
  rw [CheckedMisaligned, hcpl]
  simp [State.checks8, State.alignmentChecking, State.crAM, State.flagAC, and_assoc]

section

theorem needs16_aligned (h16 : c = .sse128 → p.lin.toNat % 16 = 0) :
    (needs16 c && p.lin.toNat % 16 != 0) = false := by
  simpa [needs16] using h16

variable (hlegal : s.legal m p n = true) (h16 : c = .sse128 → p.lin.toNat % 16 = 0)

include hlegal h16

theorem memRead_of_absent {a : Nat} (h8 : ¬CheckedMisaligned c s p.lin)
    (ha : s.mem.readLE p.lin.toNat n = .error a) :
    s.memRead m c p n = .error (s.readPageFault a) := by
  rw [checkedMisaligned_iff, Bool.not_eq_true] at h8
  simp only [State.memRead, hlegal, needs16_aligned h16, h8, physical, ha]
  rfl

theorem memRead_of_checked {v : BitVec (8 * n)} (h8 : CheckedMisaligned c s p.lin)
    (hv : s.mem.readLE p.lin.toNat n = .ok v) : s.memRead m c p n = .error .alignmentCheck := by
  rw [checkedMisaligned_iff] at h8
  simp only [State.memRead, hlegal, needs16_aligned h16, h8, physical, hv]
  rfl

/-- Which of the two faults is first is the free value of log 14. -/
theorem memRead_of_checked_absent {a : Nat} (h8 : CheckedMisaligned c s p.lin)
    (ha : s.mem.readLE p.lin.toNat n = .error a) :
    s.memRead m c p n = .error .alignmentCheck ∨
      s.memRead m c p n = .error (s.readPageFault a) := by
  rw [checkedMisaligned_iff] at h8
  simp only [State.memRead, hlegal, needs16_aligned h16, h8, physical, ha]
  cases Config.alignmentBeforePage s.ip p.lin
  · exact .inr rfl
  · exact .inl rfl

end

end

theorem readLE_of_lowestMissing {mem : Memory} {a n j : Nat} (h : LowestMissing mem a n j) :
    mem.readLE a n = .error (a + j) :=
  (Memory.readLE_eq_error_iff mem a n _).2 ⟨j, h.1, rfl, h.2⟩

theorem readLE_of_isSome {mem : Memory} {a n : Nat}
    (h : ∀ k < n, (mem.read (a + k)).isSome = true) : ∃ v, mem.readLE a n = .ok v := by
  cases hr : mem.readLE a n with
  | ok v => exact ⟨v, rfl⟩
  | error x =>
    obtain ⟨k, hk, rfl, hnone, -⟩ := (Memory.readLE_eq_error_iff mem a n x).1 hr
    simpa [hnone] using h k hk

/-- Settles O28: the address is the first check of the read. -/
theorem illegalAddressFaults : Obligations.IllegalAddressFaults := by
  intro i f s m hm hready hrm hillegal
  have hfault (g : Seg) :
      segmentFault g = if g = .ss then .stackSegment else .generalProtection := by
    cases g <;> rfl
  rw [← hfault]
  exact exec_eq_fault_of_memRead hm hready hrm (memRead_of_illegal hillegal)

/-- Settles O29: the 16-byte rule comes before the bytes are read. -/
theorem misalignedSseOperandFaults : Obligations.MisalignedSseOperandFaults := by
  intro i f s m hm hready hcls hrm hlegal hmis
  refine exec_eq_fault_of_memRead hm (hcls ▸ hready) hrm ?_
  rw [hcls]
  exact memRead_of_misaligned16 hlegal rfl hmis

/-- Settles O30: `readLE` answers the lowest absent byte. -/
theorem absentOperandByteFaults : Obligations.AbsentOperandByteFaults := by
  intro i f s m j hm hready hrm hlegal h16 h8 hj
  exact exec_eq_fault_of_memRead hm hready hrm
    (memRead_of_absent hlegal h16 h8 (readLE_of_lowestMissing hj))

/-- Settles O31: with every byte held only #AC(0) is left, and else the free order decides. -/
theorem checkedMmxOperandFaults : Obligations.CheckedMmxOperandFaults := by
  intro i f s m hm hready hcls hrm hlegal h8
  have hfault {x : Fault} (h : s.memRead m .mmx64 (operandPlace s m f i) 8 = .error x) :
      exec i s = .fault x := by
    refine exec_eq_fault_of_memRead hm (hcls ▸ hready) hrm ?_
    rw [hcls]
    exact h
  refine ⟨fun hheld => ?_, fun j hj => ?_⟩
  · obtain ⟨v, hv⟩ := readLE_of_isSome hheld
    exact hfault (memRead_of_checked hlegal nofun h8 hv)
  · have hread := memRead_of_checked_absent (c := .mmx64) hlegal nofun h8
      (readLE_of_lowestMissing hj)
    exact hread.imp hfault hfault

/-- Settles O32: the table of R189, row by row, and the #PF error code by the CPL. -/
theorem exceptionTable : Obligations.ExceptionTable := by
  refine ⟨rfl, rfl, rfl, rfl, rfl, rfl, fun c a => ⟨rfl, rfl⟩, by decide, rfl, rfl, rfl, rfl, rfl,
    rfl, fun s a => ?_⟩
  change _ = some (if s.cpl = 3#2 then 4 else 0)
  rw [State.readPageFault]
  by_cases h : s.cpl = 3#2
  · rw [if_pos h, decide_eq_true h]; rfl
  · rw [if_neg h, decide_eq_false h]; rfl

/-- Settles O33, for every class, place and size. -/
theorem memReadIsLittleEndian : Obligations.MemReadIsLittleEndian :=
  memRead_eq_ok_iff

end Sys2Proof.Machine
end

section
/-! Where a memory operand lies: its effective address as a number, its segment and linear address,
and what a legal address is (20_memory.md R56; 30_encoding.md R106 to R110, R114). -/

namespace Sys2Proof.Machine

open Claims

/-! ### Canonical addresses -/

/-- A word whose bits are all its top bit is 0 or all ones. -/
theorem forall_getLsbD_eq_iff (x : BitVec 17) :
    (∀ j < 17, x.getLsbD j = x.getLsbD 16) ↔ x = 0#17 ∨ x = BitVec.allOnes 17 := by
  constructor
  · intro h
    cases h16 : x.getLsbD 16 with
    | false =>
      exact .inl (BitVec.eq_of_getLsbD_eq fun j hj => by rw [h j hj, h16, BitVec.getLsbD_zero])
    | true =>
      exact .inr (BitVec.eq_of_getLsbD_eq fun j hj => by
        rw [h j hj, h16, BitVec.getLsbD_allOnes, decide_eq_true hj])
  · rintro (rfl | rfl) <;> decide

/-- The numeric test of the model is the rule on bits 63 to 47 (R56). -/
theorem canonical_toNat_iff (a : Word64) : canonical a.toNat = true ↔ CanonicalBits a := by
  have hbits : CanonicalBits a ↔
      ∀ j < 17, (field a 47 17).getLsbD j = (field a 47 17).getLsbD 16 := by
    simp only [CanonicalBits, BitVec.getLsbD_extractLsb']
    constructor
    · intro h j hj
      simpa [hj] using h (47 + j) (by omega) (by omega)
    · intro h j hlo hhi
      have := h (j - 47) (by omega)
      simpa [show 47 + (j - 47) = j by omega, show j - 47 < 17 by omega] using this
  have hlt := a.isLt
  rw [hbits, forall_getLsbD_eq_iff, ← BitVec.toNat_inj, ← BitVec.toNat_inj,
    BitVec.extractLsb'_toNat, BitVec.toNat_allOnes, BitVec.toNat_ofNat, Nat.shiftRight_eq_div_pow]
  simp only [canonical, Bool.or_eq_true, Bool.and_eq_true, decide_eq_true_eq]
  omega

theorem canonical_iff (x : Nat) :
    canonical x = true ↔ x < 2 ^ 64 ∧ CanonicalBits (BitVec.ofNat 64 x) := by
  rw [← canonical_toNat_iff, BitVec.toNat_ofNat]
  constructor
  · intro h
    have hlt : x < 2 ^ 64 := by
      simp only [canonical, Bool.or_eq_true, Bool.and_eq_true, decide_eq_true_eq] at h
      omega
    exact ⟨hlt, by rwa [Nat.mod_eq_of_lt hlt]⟩
  · rintro ⟨hlt, h⟩
    rwa [Nat.mod_eq_of_lt hlt] at h

/-- The canonical addresses are two ranges, and no operand reaches from one into the other. -/
theorem canonical_ends_iff {x n : Nat} (hn : 0 < n) (h32 : n ≤ 32) :
    (canonical x = true ∧ canonical (x + (n - 1)) = true) ↔
      ∀ k < n, canonical (x + k) = true := by
  constructor
  · simp only [canonical, Bool.or_eq_true, Bool.and_eq_true, decide_eq_true_eq]
    intro h k hk
    omega
  · intro h
    exact ⟨h 0 hn, h (n - 1) (by omega)⟩

/-- Settles O34: legality is tested at an operand's two ends and holds between them. -/
theorem legalAddressIsCanonicalOrWithinLimit :
    Obligations.LegalAddressIsCanonicalOrWithinLimit := by
  intro s p n hn h32
  constructor
  · simp only [State.legal, Bool.and_eq_true, ← canonical_iff]
    exact canonical_ends_iff hn h32
  · simp only [State.legal, Bool.and_eq_true, decide_eq_true_eq]
    constructor
    · intro h k hk
      omega
    · intro h
      have := h (n - 1) (by omega)
      omega

/-! ### Addresses as integers -/

/-- The word stands for the integer: equal modulo `2^64`. -/
def Denotes (a : Word64) (z : Int) : Prop := (a.toNat : Int) ≡ z [ZMOD 2 ^ 64]

theorem denotes_toNat (a : Word64) : Denotes a a.toNat := Int.ModEq.refl _

theorem denotes_zero : Denotes 0#64 0 := Int.ModEq.refl _

theorem denotes_ofNat (n : Nat) : Denotes (BitVec.ofNat 64 n) n := by
  rw [Denotes, BitVec.toNat_ofNat]
  exact_mod_cast Int.natCast_modEq_iff.2 (Nat.mod_modEq n (2 ^ 64))

theorem Denotes.add {a b : Word64} {x y : Int} (ha : Denotes a x) (hb : Denotes b y) :
    Denotes (a + b) (x + y) := by
  have hsum : Denotes (a + b) (a.toNat + b.toNat : Nat) := denotes_ofNat (a.toNat + b.toNat)
  rw [Denotes, Nat.cast_add] at hsum
  exact hsum.trans (Int.ModEq.add ha hb)

theorem denotes_shiftLeft (a : Word64) (k : Nat) :
    Denotes (a <<< k) ((a.toNat * 2 ^ k : Nat) : Int) := by
  rw [← Nat.shiftLeft_eq]
  exact denotes_ofNat (a.toNat <<< k)

theorem denotes_signExtend {w : Nat} (d : BitVec w) (hw : w ≤ 64) :
    Denotes (d.signExtend 64) d.toInt := by
  rw [← BitVec.toInt_signExtend_of_le hw, BitVec.toInt_eq_toNat_bmod]
  exact Int.bmod_emod.symm

theorem denotes_dispValue (d : Disp) : Denotes (dispValue d) (dispInt d) := by
  cases d with
  | none => exact denotes_zero
  | disp8 d => exact denotes_signExtend d (by decide)
  | disp32 d => exact denotes_signExtend d (by decide)

theorem denotes_disp16Value (d : Disp16) : Denotes (disp16Value d) (disp16Int d) := by
  cases d with
  | none => exact denotes_zero
  | disp8 d => exact denotes_signExtend d (by decide)
  | disp16 d => exact denotes_signExtend d (by decide)

theorem denotes_sibIndex (s : State) (x : Bool) (ss : BitVec 2) (index : BitVec 3) :
    Denotes (s.sibIndex x ss index) (indexNat s x ss index) := by
  have hnone : extend3 x index = 4#4 ↔ x = false ∧ index = 4#3 := by
    revert x index; decide
  simp only [State.sibIndex, indexNat, hnone]
  split
  · exact denotes_zero
  · exact denotes_shiftLeft _ _

theorem denotes_base16 (s : State) (rm : BitVec 3) : Denotes (s.base16 rm) (base16Nat s rm) := by
  have hreg (i : BitVec 4) := denotes_toNat (s.readGpr i)
  have hpair (i j : BitVec 4) :
      Denotes (s.readGpr i + s.readGpr j) ((s.readGpr i).toNat + (s.readGpr j).toNat : Nat) :=
    denotes_ofNat _
  obtain ⟨⟨n, hn⟩⟩ := rm
  interval_cases n
  · exact hpair 3#4 6#4
  · exact hpair 3#4 7#4
  · exact hpair 5#4 6#4
  · exact hpair 5#4 7#4
  · exact hreg 6#4
  · exact hreg 7#4
  · exact hreg 5#4
  · exact hreg 3#4

/-! ### The effective address -/

theorem reduce_toNat (m : Mode) (ps : List Prefix) (a : Word64) :
    ((addrSize m ps).reduce a).toNat = a.toNat % 2 ^ addressBits m ps := by
  have h64 : a.toNat % 2 ^ 64 = a.toNat := Nat.mod_eq_of_lt a.isLt
  have h32 : a.toNat % 2 ^ 32 % 2 ^ 64 = a.toNat % 2 ^ 32 := by omega
  have h16 : a.toNat % 2 ^ 16 % 2 ^ 64 = a.toNat % 2 ^ 16 := by omega
  cases m <;> by_cases h : Prefix.addrSize ∈ ps
  · simpa [addrSize, addressBits, h, AddrSize.reduce] using h32
  · simpa [addrSize, addressBits, h, AddrSize.reduce] using h64.symm
  · simpa [addrSize, addressBits, h, AddrSize.reduce] using h16
  · simpa [addrSize, addressBits, h, AddrSize.reduce] using h32

theorem addressBits_le (m : Mode) (ps : List Prefix) : addressBits m ps ≤ 64 := by
  cases m <;> by_cases h : Prefix.addrSize ∈ ps <;> simp [addressBits, h]

/-- The effective address is the integer the address sum stands for, modulo the address size. -/
theorem ea_of_denotes {s : State} {m : Mode} {x b : Bool} {len : Nat} {f : MemForm} {z : Int}
    (ps : List Prefix) (h : Denotes (s.addressSum m x b len f) z) :
    ((s.place m ps x b len f).ea.toNat : Int) = z % 2 ^ addressBits m ps := by
  rw [State.place, reduce_toNat]
  push_cast
  exact h.of_dvd (pow_dvd_pow 2 (addressBits_le m ps))

/-- Settles O35: the register and the displacement denote their integers, and so does the sum. -/
theorem baseDisplacementAddress : Obligations.BaseDisplacementAddress := by
  intro s m ps x b len
  refine ⟨fun rm d => ea_of_denotes ps ((denotes_toNat _).add (denotes_dispValue d)), ?_⟩
  rintro d rfl
  exact ea_of_denotes ps (denotes_signExtend d (by decide))

/-- Settles O36: `ip`, the length and the displacement are added in turn. -/
theorem ripRelativeAddress : Obligations.RipRelativeAddress := by
  intro s ps x b len d
  exact ea_of_denotes ps
    (((denotes_toNat s.ip).add (denotes_ofNat len)).add (denotes_signExtend d (by decide)))

/-- Settles O37: the scaled index denotes `indexNat`, with and without a base beside it. -/
theorem scaledIndexAddress : Obligations.ScaledIndexAddress := by
  intro s m ps x b len ss index
  have hindex := denotes_sibIndex s x ss index
  refine ⟨fun bse d => ea_of_denotes ps
    (((denotes_toNat _).add hindex).add (denotes_dispValue d)), fun d => ?_⟩
  rw [Int.add_comm]
  exact ea_of_denotes ps ((denotes_signExtend d (by decide)).add hindex)

/-- Settles O38: a 16-bit displacement alone is its own residue. -/
theorem sixteenBitAddress : Obligations.SixteenBitAddress := by
  intro s ps x b len h67
  have hbits : addressBits .mode32 ps = 16 := by simp [addressBits, h67]
  constructor
  · intro rm d
    have h := ea_of_denotes (m := .mode32) (x := x) (b := b) (len := len) (f := .base16 rm d) ps
      ((denotes_base16 s rm).add (denotes_disp16Value d))
    rwa [hbits] at h
  · intro d
    have h := ea_of_denotes (s := s) (m := .mode32) (x := x) (b := b) (len := len)
      (f := .disp16 d) ps (denotes_signExtend d (by decide))
    rw [hbits, BitVec.toInt_eq_toNat_cond] at h
    split at h <;> omega

/-! ### The segment and the linear address -/

theorem segOverride_eq_none {m : Mode} {ps : List Prefix} (h : ∀ g, Prefix.seg g ∉ ps) :
    segOverride m ps = none := by
  induction ps with
  | nil => rfl
  | cons p ps ih =>
    have ih := ih fun g hg => h g (List.mem_cons_of_mem p hg)
    cases p with
    | seg g => exact absurd List.mem_cons_self (h g)
    | opSize | addrSize | lock | repne | rep => exact ih

/-- The one override counts in `Mode32`, and in `Mode64` if it is FS or GS (R110). -/
theorem segOverride_of_mem {m : Mode} {ps : List Prefix} {g : Seg}
    (hd : Prefix.distinct ps = true) (h : .seg g ∈ ps) :
    segOverride m ps = if m = .mode32 ∨ g = .fs ∨ g = .gs then some g else none := by
  induction ps with
  | nil => cases h
  | cons p ps ih =>
    have hnodup := of_decide_eq_true hd
    rw [List.map_cons, List.nodup_cons] at hnodup
    obtain ⟨hp, hps⟩ := hnodup
    cases p with
    | seg g' =>
      have htail (g'' : Seg) : Prefix.seg g'' ∉ ps := fun hmem =>
        hp (show Prefix.kind (.seg g'') ∈ ps.map Prefix.kind from List.mem_map_of_mem hmem)
      obtain rfl : g = g' := by simpa [htail g] using h
      have hnone := segOverride_eq_none (m := m) htail
      cases m with
      | mode64 => cases g <;> simp [segOverride, hnone]
      | mode32 => simp [segOverride]
    | opSize | addrSize | lock | repne | rep =>
      exact ih (decide_eq_true hps) (by simpa using h)

theorem wrap_mode32_toNat (a : Word64) : (wrap .mode32 a).toNat = a.toNat % 2 ^ 32 := by
  simp only [wrap, BitVec.toNat_setWidth]
  omega

/-- Settles O39: distinct prefixes have one override at most, and the linear address is one sum. -/
theorem segmentChoice : Obligations.SegmentChoice := by
  refine ⟨fun rm bse index ss d d16 b => ⟨rfl, rfl, rfl⟩, fun d d16 ss index b => ⟨rfl, rfl, rfl⟩,
    fun s m ps x b len f g hd hg => ?_, fun s m ps x b len f hno => ?_, fun s ps x b len f => ?_⟩
  · rw [State.place, segmentOf, segOverride_of_mem hd hg]
    split_ifs <;> rfl
  · rw [State.place, segmentOf, segOverride_eq_none hno]
  · constructor
    · have hbase : s.segBase .mode64 (s.place .mode64 ps x b len f).seg =
          if (s.place .mode64 ps x b len f).seg = .fs then s.segs[segIndex .fs].base
          else if (s.place .mode64 ps x b len f).seg = .gs then s.segs[segIndex .gs].base
          else 0#64 := by
        cases (s.place .mode64 ps x b len f).seg <;> rfl
      have hlin : (s.place .mode64 ps x b len f).lin =
          s.segBase .mode64 (s.place .mode64 ps x b len f).seg +
            (s.place .mode64 ps x b len f).ea := rfl
      rw [hlin, hbase, BitVec.toNat_add]
      split_ifs <;> rfl
    · have hlin : (s.place .mode32 ps x b len f).lin =
          wrap .mode32 (s.segs[segIndex (s.place .mode32 ps x b len f).seg].base +
            (s.place .mode32 ps x b len f).ea) := rfl
      rw [hlin, wrap_mode32_toNat, BitVec.toNat_add]
      omega

end Sys2Proof.Machine
end

section
/-! The step: what the fetch makes of the bytes at `ip`, and what a completed step changes and keeps
(10_state.md R26; 40_packed_add_common.md R140, R141; 60_exceptions.md R188). -/

namespace Sys2Proof.Machine

open Claims

/-! ### The bytes at `ip` -/

/-- The text's bytes are the ones the fetch gets one by one. -/
theorem textAt_iff (s : State) (m : Mode) (bytes : List Byte) :
    TextAt s m bytes ↔
      ∀ (k : Nat) (h : k < bytes.length), s.codeByte m (0 + k) = .ok bytes[k] := by
  simp only [TextAt, codeByte_eq_ok_iff, Nat.zero_add]

/-- Where no byte can be fetched the fetch ends with that stop. -/
theorem codeBytes_of_codeByte_error {s : State} {m : Mode} {bytes : List Byte} {k n : Nat}
    {stop : Stop} (h : ∀ (j : Nat) (hj : j < bytes.length), s.codeByte m (k + j) = .ok bytes[j])
    (hstop : s.codeByte m (k + bytes.length) = .error stop) (hn : bytes.length < n) :
    s.codeBytes m k n = (bytes, stop) := by
  induction bytes generalizing k n with
  | nil =>
    cases n with
    | zero => cases hn
    | succ n =>
      rw [List.length_nil, Nat.add_zero] at hstop
      rw [State.codeBytes, hstop]
  | cons b t ih =>
    cases n with
    | zero => cases hn
    | succ n =>
      have h0 : s.codeByte m k = .ok b := h 0 (by simp)
      have hrest := ih (k := k + 1) (n := n)
        (fun j hj => by
          have := h (j + 1) (by simpa using hj)
          rwa [show k + (j + 1) = k + 1 + j by omega] at this)
        (by rwa [List.length_cons, show k + (t.length + 1) = k + 1 + t.length by omega] at hstop)
        (by simpa using hn)
      rw [State.codeBytes, h0, hrest]

/-- What the decoder answers on the text it answers on the fetched bytes, up to the bytes left. -/
theorem decode_codeBytes {s : State} {m : Mode} {bytes : List Byte} {d : Decoded}
    (htext : TextAt s m bytes) (hlen : bytes.length ≤ 15)
    (h : decode m s.cpu.admit16 bytes = d) (hd : d ≠ .truncated) :
    ∃ more, decode m s.cpu.admit16 (s.codeBytes m 0 Config.maxLength).1 = d.withMore more := by
  obtain ⟨more, hmore⟩ := codeBytes_of_codeByte s m bytes 0 Config.maxLength
    ((textAt_iff s m bytes).1 htext) hlen
  exact ⟨more, by rw [hmore, decode_append more (h ▸ hd), h]⟩

/-- A decoded instruction with nothing left over is short enough to be fetched whole (R116). -/
theorem length_le_of_decode {m : Mode} {a16 : Bool} {bytes : List Byte} {i : Instr}
    (h : decode m a16 bytes = .instr i []) : bytes.length ≤ 15 := by
  obtain ⟨hwf, hbytes⟩ := decode_eq_instr h
  have hlen := (length_bounds hwf).2
  rw [hbytes, List.append_nil, encode_length]
  omega

section

variable {s : State} {m : Mode} {bytes : List Byte} (hip : s.ipCanonical m 0 = true)
  (htext : TextAt s m bytes)

include hip htext

theorem fetch_of_text_invalidOpcode (hlen : bytes.length ≤ 15)
    (h : decode m s.cpu.admit16 bytes = .invalidOpcode) :
    s.fetch m = .error (.fault .invalidOpcode) := by
  obtain ⟨more, hmore⟩ := decode_codeBytes htext hlen h nofun
  simp only [State.fetch, hip, hmore]
  rfl

theorem fetch_of_text_reject {r : Reject} (hlen : bytes.length ≤ 15)
    (h : decode m s.cpu.admit16 bytes = .reject r) :
    s.fetch m = .error (.refused (.notAnInstruction r)) := by
  obtain ⟨more, hmore⟩ := decode_codeBytes htext hlen h nofun
  simp only [State.fetch, hip, hmore]
  rfl

theorem fetch_of_text_instr {i : Instr} (h : decode m s.cpu.admit16 bytes = .instr i []) :
    s.fetch m = if s.ipCanonical m i.length then .ok i else .error (.fault .generalProtection) := by
  obtain ⟨more, hmore⟩ := decode_codeBytes htext (length_le_of_decode h) h nofun
  simp only [State.fetch, hip, hmore]
  rfl

/-- An instruction begun stops where its next byte cannot be fetched. -/
theorem fetch_of_text_truncated {stop : Stop} (hlen : bytes.length < 15)
    (h : decode m s.cpu.admit16 bytes = .truncated)
    (hstop : s.codeByte m bytes.length = .error stop) : s.fetch m = .error stop := by
  have hcode := codeBytes_of_codeByte_error (n := Config.maxLength) ((textAt_iff s m bytes).1 htext)
    (by rwa [Nat.zero_add]) hlen
  simp only [State.fetch, hip, hcode, h]
  rfl

end

theorem step_of_fetch_error {s : State} {m : Mode} {stop : Stop} (hm : s.mode = .ok m)
    (h : s.fetch m = .error stop) : step s = stop.result := by
  simp [step, hm, h]

/-- Settles O40: the fetch answers the decoded instruction, and the step runs it. -/
theorem stepRunsTheDecodedInstruction : Obligations.StepRunsTheDecodedInstruction := by
  intro s m bytes i hm h htext hip hnext
  have hfetch := fetch_of_text_instr hip htext h
  rw [if_pos hnext] at hfetch
  simp [step, hm, hfetch]

/-- Settles O41, stop by stop in the order of the fetch. -/
theorem stepStopsOnOtherBytes : Obligations.StepStopsOnOtherBytes := by
  intro s m hm
  have hstep {stop : Stop} (h : s.fetch m = .error stop) : step s = stop.result :=
    step_of_fetch_error hm h
  refine ⟨fun hip bytes hlen htext => ⟨fun h => ?_, fun r h => ?_⟩,
    fun hip bytes hlen htext h => ⟨fun hcross => ?_, fun haddr hlimit => ?_,
      fun haddr hlimit habsent => ?_⟩,
    fun hm64 hcanon => ?_, fun hm64 hip bytes i h htext hnext => ?_⟩
  · exact hstep (fetch_of_text_invalidOpcode hip htext hlen h)
  · exact hstep (fetch_of_text_reject hip htext hlen h)
  · refine hstep (fetch_of_text_truncated (stop := .refused .codeCrossesTop) hip htext hlen h ?_)
    simp [State.codeByte, hcross]
  · refine hstep (fetch_of_text_truncated (stop := .fault .generalProtection) hip htext hlen h ?_)
    simp [State.codeByte, haddr, hlimit]
  · refine hstep (fetch_of_text_truncated (stop := .refused .fetchOutsideText) hip htext hlen h ?_)
    simp [State.codeByte, haddr, hlimit, habsent]
  · subst hm64
    rw [← canonical_toNat_iff, Bool.not_eq_true] at hcanon
    refine hstep (stop := .fault .generalProtection) ?_
    simp [State.fetch, State.ipCanonical, hcanon]
  · have hfetch := fetch_of_text_instr hip htext h
    rw [if_neg (by simp [hnext])] at hfetch
    exact hstep hfetch

/-! ### A completed step -/

theorem ip_of_exec {s t : State} {m : Mode} {i : Instr} (hm : s.mode = .ok m)
    (h : exec i s = .next t) : t.ip = s.nextIp m i.length := by
  obtain ⟨-, -, -, m', hm', hip⟩ := exec_eq_next_frame h
  obtain rfl : m = m' := Except.ok.inj (hm.symm.trans hm')
  exact hip

/-- Settles O43: the fetched bytes are the encoder's, of a length within R116. -/
theorem stepAdvancesPastOneInstruction : Obligations.StepAdvancesPastOneInstruction := by
  intro s t h
  obtain ⟨m, i, hm, hfetch, hexec⟩ := (step_eq_next_iff s t).1 h
  obtain ⟨-, hnext, rest, hdecode⟩ := (fetch_eq_ok_iff s m i).1 hfetch
  obtain ⟨hwf, hbytes⟩ := decode_eq_instr hdecode
  obtain ⟨hmin, hmax⟩ := encodingIsThreeToTwelveBytes m s.cpu.admit16 i hwf
  refine ⟨m, i, hm, hwf, ?_, hmin, hmax, hexec, ?_⟩
  · exact (textAt_iff s m _).2 (codeByte_of_codeBytes s m 0 _ _ rest hbytes)
  · rw [ip_of_exec hm hexec, encode_length]
    cases m with
    | mode64 => exact toNat_nextIp_mode64 s i.length hnext
    | mode32 => exact toNat_nextIp_mode32 s i.length

/-- Settles O44: a step changes what its instruction changes. -/
theorem stepKeepsTheSurroundings : Obligations.StepKeepsTheSurroundings := by
  intro s t h
  obtain ⟨m, i, -, -, hexec⟩ := (step_eq_next_iff s t).1 h
  obtain ⟨hsame, hmem, hmode, -⟩ := exec_eq_next_frame hexec
  exact ⟨hsame, hmem, hmode⟩

/-- Settles O45: the memory and the mode are kept, the fetch has checked that the next `ip` is
canonical in `Mode64`, and in `Mode32` it is reduced modulo `2^32`. -/
theorem stepKeepsTheInvariant : Obligations.StepKeepsTheInvariant := by
  rintro s t ⟨hwf, -⟩ h
  obtain ⟨m, i, hm, hfetch, hexec⟩ := (step_eq_next_iff s t).1 h
  obtain ⟨-, hnext, -⟩ := (fetch_eq_ok_iff s m i).1 hfetch
  obtain ⟨-, hmem, hmode, -⟩ := exec_eq_next_frame hexec
  refine ⟨by rwa [hmem], ?_⟩
  rw [IpInRange, hmode, hm, ip_of_exec hm hexec]
  cases m with
  | mode64 =>
    show canonical (s.nextIp .mode64 i.length).toNat = true
    rwa [toNat_nextIp_mode64 s i.length hnext]
  | mode32 =>
    show (s.nextIp .mode32 i.length).toNat < 2 ^ 32
    rw [toNat_nextIp_mode32]
    exact Nat.mod_lt _ (by decide)

end Sys2Proof.Machine
end

section
/-! Reset, INIT and launch (10_state.md R35; 70_reset_and_hazards.md R221). -/

namespace Sys2Proof.Machine

open Claims

/-! ### Launch: the control bits it sets, whatever stood there -/

section

variable (s : State) (m : Mode)

@[simp] theorem launch_crPE : (s.launch m).crPE = true := by
  cases m <;> simp [State.crPE, launchCr0]

@[simp] theorem launch_crEM : (s.launch m).crEM = false := by
  cases m <;> simp [State.crEM, launchCr0]

@[simp] theorem launch_crTS : (s.launch m).crTS = false := by
  cases m <;> simp [State.crTS, launchCr0]

@[simp] theorem launch_crPG : (s.launch .mode64).crPG = true := by simp [State.crPG, launchCr0]

@[simp] theorem launch_lme : (s.launch m).lme = decide (m = .mode64) := by
  cases m <;> simp [State.lme, launchEfer]

@[simp] theorem launch_lma : (s.launch m).lma = decide (m = .mode64) := by
  cases m <;> simp [State.lma, launchEfer]

@[simp] theorem launch_flagVM : (s.launch m).flagVM = false := by simp [State.flagVM]

@[simp] theorem launch_osfxsr : (s.launch m).osfxsr = true := by simp [State.osfxsr]

@[simp] theorem launch_osxsave : (s.launch m).osxsave = true := by simp [State.osxsave]

@[simp] theorem launch_avxStateEnabled : (s.launch m).avxStateEnabled = true :=
  (avxStateEnabled_iff _).2 (by simp)

theorem launch_mode : (s.launch m).mode = .ok m := by
  cases m <;> simp [State.mode]

theorem launch_segBase (m' : Mode) (g : Seg) : (s.launch m).segBase m' g = 0#64 := by
  have hbase (k : Fin 6) : (s.launch m).segs[k].base = 0#64 := by simp [flatSeg]
  cases m' with
  | mode64 =>
    cases g with
    | fs | gs => exact hbase _
    | es | cs | ss | ds => rfl
  | mode32 => exact hbase _

end

/-- Settles O48: the checks of each class pass on the bits a launch sets and the features given. -/
theorem launchMakesEveryClassReady : Obligations.LaunchMakesEveryClassReady := by
  intro s m hmmx hsse2 havx havx2 hes
  refine ⟨launch_mode s m, by rintro rfl; simp, fun c => ?_, launch_segBase s m⟩
  rw [← checks_eq_none_iff]
  have hpending : (s.launch m).x87ErrorPending = false := hes
  cases c <;> simp [checks, available, environmentUD, hmmx, hsse2, havx, havx2, hpending]

theorem reset_mode : State.reset.mode = .error .realAddress := by decide

/-- Settles O46: after reset no mode is in scope, and a launch keeps memory and `ip`. -/
theorem resetAndLaunchMeetTheInvariant : Obligations.ResetAndLaunchMeetTheInvariant := by
  refine ⟨⟨reset_mem_wf, ?_⟩, fun m => ⟨reset_mem_wf, ?_⟩⟩
  · rw [IpInRange, reset_mode]
    trivial
  · rw [IpInRange, launch_mode]
    cases m with
    | mode64 => show canonical State.reset.ip.toNat = true; decide
    | mode32 => show State.reset.ip.toNat < 2 ^ 32; decide

/-! ### Reset and INIT -/

/-- Settles O47: the table's values field by field, and a mode that the step refuses. -/
theorem resetIsTheTable : Obligations.ResetIsTheTable := by
  refine ⟨by decide, by decide, rfl, rfl, rfl, by decide, rfl, rfl, rfl, rfl, rfl, rfl, rfl, rfl,
    reset_mode, (modesOutOfScopeAreRefused _ _ reset_mode).1⟩

/-- PE is clear after INIT and `smm` is as after reset. -/
theorem init_mode (s : State) (upper : Vector (BitVec 128) 16) (xcr0 : BitVec 64) :
    (s.init upper xcr0).mode = .error .realAddress := by
  have hpe : (s.init upper xcr0).crPE = false := by simp [State.crPE, initCr0, State.reset]
  have hsmm : State.reset.smm = false := rfl
  simp [State.mode, hpe, hsmm]

/-- INIT keeps CD and NW and sets the other bits of CR0 as reset does. -/
theorem getLsbD_initCr0 (old : BitVec 32) (j : Nat) (hj : j < 32) : (initCr0 old).getLsbD j =
    if j = 29 ∨ j = 30 then old.getLsbD j else State.reset.cr0.getLsbD j := by
  have hmask : ∀ j < 32, (0x60000000#32).getLsbD j = decide (j = 29 ∨ j = 30) ∧
      (State.reset.cr0 &&& 0x9FFFFFFF#32).getLsbD j =
        (!decide (j = 29 ∨ j = 30) && State.reset.cr0.getLsbD j) := by decide
  obtain ⟨hkeep, hset⟩ := hmask j hj
  rw [initCr0, BitVec.getLsbD_or, BitVec.getLsbD_and (x := old), hkeep, hset]
  split_ifs with h <;> simp [h]

/-- Settles O51: CR0 bit by bit, the YMM registers half by half, the rest field by field. -/
theorem initIsTheTable : Obligations.InitIsTheTable := by
  intro s upper xcr0
  refine ⟨fun i => ⟨rfl, rfl⟩, fun i => ?_, rfl, rfl, rfl, rfl,
    fun j hj => getLsbD_initCr0 s.cr0 j hj, rfl, rfl, rfl, rfl, fun i _ => rfl, rfl,
    show State.reset.cpl = 0#2 by decide,
    (modesOutOfScopeAreRefused _ _ (init_mode s upper xcr0)).1⟩
  rw [State.readXmm, init_readYmm, field_low_append, field_high_append]
  exact ⟨rfl, rfl⟩

end Sys2Proof.Machine
end
